-- ==== Sys2Proof/Word.lean ====
section
/-! DEFINITION. The word types of the block (spec/00_scope.md R8, R11, R12) and nothing else:
a value operand, REG's container and the response data word are 64 bits wide, data comes in bytes,
and the small tables are indexed by nibbles. Everything is unsigned; bit 0 has weight 1. -/

namespace Sys2Proof

/-- A value of DATA_W = 64 bits (R8). -/
abbrev Word := BitVec 64

/-- A byte of data or of a frame (R11). -/
abbrev Byte := BitVec 8

/-- A nibble, the index of a 16-entry table (R11, R40). -/
abbrev Nibble := BitVec 4

end Sys2Proof
end

