-- ==== Sys2Proof/Config.lean ====
section
/-! DEFINITION. The parameters fixed for this hardware (spec/00_scope.md R8, R17).
The block has no free value: no behaviour is left open but time (spec/93_implementation_defined.md), and no rule
reads a time. -/

namespace Sys2Proof.Config

/-- MAX_BITS, the largest legal width (R8; spec/92_eei_decisions.md D3). -/
def maxBits : Nat := 64

/-- CHECK_LEN, the length in bytes of the check string (R8). -/
def checkLen : Nat := 9

/-- The check string "123456789": the nine bytes of R17, the first folded first (spec/20_memory.md R54). -/
def checkString : List Byte := [0x31, 0x32, 0x33, 0x34, 0x35, 0x36, 0x37, 0x38, 0x39]

/-- The largest bit count of UPDATE_BITS and BITS_REV, which is DATA_W (R8; spec/92_eei_decisions.md D15, D16). -/
def maxCount : Nat := 64

end Sys2Proof.Config
end

