-- ==== Sys2Proof/Syntax.lean ====
section
/-! DEFINITION. The commands of the block (spec/30_encoding.md R72), one constructor per row of
spec/opcode_table.json, with their operands as R78 assembles them, and the frames that carry them (R70). -/

namespace Sys2Proof

/-- The table shapes CTL.SHP can name (R77; spec/10_state.md R31); the code 3 is reserved and has no constructor. -/
inductive Shape where
  /-- SHP = 0: the 256-entry table. -/
  | s256
  /-- SHP = 1: the 2x16-entry table ("32-table"). -/
  | s2x16
  /-- SHP = 2: the 16-entry table ("16-table"). -/
  | s16
  deriving DecidableEq, Repr

/-- The thirteen selectors of READ (spec/44_engine_operations.md R205), in the order of their codes 0x00 to 0x0C. -/
inductive Selector where
  | bits | poly | polyRev | init | xorOut | checkValue | reflectIn | reflectOut
  | mask | resultWidth | initEff | tableShape | phase
  deriving DecidableEq, Repr

/-- The seven opcodes (R72). -/
inductive Opcode where
  | configure | getEngine | update | updateBits | finalize | read | bitsRev
  deriving DecidableEq, Repr

/-- A command. A field holds what the frame's field holds (R78): `configure`'s `check` is carried also when
`checkPresent` is false, and the value of a format-V command is carried whole. -/
inductive Instr where
  /-- CONFIGURE: `ri`, `ro`, `cp`, `shape`, `bits` (0 to 255), `poly`, `init`, `xor_out`, `check` (R76, R77). -/
  | configure (refin refout checkPresent : Bool) (shape : Shape) (bits : Nat) (poly init xorout check : Word)
  /-- GET_ENGINE. -/
  | getEngine
  /-- UPDATE `b`. -/
  | update (b : Byte)
  /-- UPDATE_BITS `v`, `n`, `n` from 0 to 64. -/
  | updateBits (v : Word) (n : Nat)
  /-- FINALIZE. -/
  | finalize
  /-- READ `sel`. -/
  | read (sel : Selector)
  /-- BITS_REV `v`, `n`, `n` from 0 to 64. -/
  | bitsRev (v : Word) (n : Nat)
  deriving DecidableEq, Repr

/-- A frame as the port delivers it (R70): whole, delimited, and of any length in bits; bytes in the order of delivery, bits of a byte most
significant first (R71). -/
inductive Frame where
  /-- A whole number of bytes, possibly none. -/
  | whole (bytes : List Byte)
  /-- A length that is no multiple of 8: whole bytes, then `extra + 1` bits more, from 1 to 7. -/
  | ragged (bytes : List Byte) (extra : Fin 7) (bits : BitVec (extra.val + 1))
  deriving DecidableEq, Repr

/-- Why a frame is illegal: the six conditions of R79, in its order. All are answered alike. -/
inductive Illegal where
  /-- (1) the length is not 8, 16, 80 or 280 bits. -/
  | length
  /-- (2) the opcode byte is 0x00 or 0x08..0xFF. -/
  | opcode
  /-- (3) the length is not the one R72 gives for the opcode. -/
  | lengthForOpcode
  /-- (4) UPDATE_BITS or BITS_REV with N > 64. -/
  | count
  /-- (5) READ with SEL > 0x0C. -/
  | selector
  /-- (6) CONFIGURE with CTL[7:5] != 0 or CTL[4:3] = 3. -/
  | control
  deriving DecidableEq, Repr

end Sys2Proof
end

