-- ==== Sys2Proof/WellFormed.lean ====
section
/-! DEFINITION. Which commands a frame can carry (spec/30_encoding.md R75, R76, R79): the fields that are counts are in
the range their frame field admits. The other fields' types leave nothing to check. -/

namespace Sys2Proof

/-- BITSF is a byte: any value 0..255 decodes (R76). -/
def WellFormed.bitsField (bits : Nat) : Bool := bits < 256

/-- N is legal from 0 to 64 (R75). -/
def WellFormed.count (n : Nat) : Bool := n ≤ Config.maxCount

/-- The command is one a legal frame carries. -/
def Instr.wf : Instr → Bool
  | .configure _ _ _ _ bits _ _ _ _ => WellFormed.bitsField bits
  | .getEngine => true
  | .update _ => true
  | .updateBits _ n => WellFormed.count n
  | .finalize => true
  | .read _ => true
  | .bitsRev _ n => WellFormed.count n

end Sys2Proof
end

