-- ==== Sys2Proof/Decode.lean ====
section
/-! DEFINITION. The decoder of spec/30_encoding.md R80, total on every frame, refusing by the name of R79's condition; and
the encoder of R81, written from the formats R73 to R77. -/

namespace Sys2Proof

/-! ### Frames -/

/-- The length of a frame in bits (R70). -/
def Frame.len : Frame → Nat
  | .whole bytes => 8 * bytes.length
  | .ragged bytes extra _ => 8 * bytes.length + extra.val + 1

/-- The number of a big-endian field of bytes (R71), in a 64-bit word. -/
def wordOfBytes (bs : List Byte) : Word := bs.foldl (fun acc b => (acc <<< 8) ||| b.setWidth 64) 0

/-- The eight bytes of a word, the most significant first (R71). -/
def bytesOfWord (v : Word) : List Byte :=
  [(v >>> 56).setWidth 8, (v >>> 48).setWidth 8, (v >>> 40).setWidth 8, (v >>> 32).setWidth 8,
    (v >>> 24).setWidth 8, (v >>> 16).setWidth 8, (v >>> 8).setWidth 8, v.setWidth 8]

/-! ### The codes of the encoding -/

/-- The opcode byte (R72). -/
def Opcode.code : Opcode → Byte
  | .configure => 0x01
  | .getEngine => 0x02
  | .update => 0x03
  | .updateBits => 0x04
  | .finalize => 0x05
  | .read => 0x06
  | .bitsRev => 0x07

/-- The opcode of an opcode byte; 0x00 and 0x08 to 0xFF are undefined (R72). -/
def Opcode.ofCode (b : Byte) : Option Opcode :=
  match b.toNat with
  | 0x01 => some .configure
  | 0x02 => some .getEngine
  | 0x03 => some .update
  | 0x04 => some .updateBits
  | 0x05 => some .finalize
  | 0x06 => some .read
  | 0x07 => some .bitsRev
  | _ => none

/-- The frame length in bits of an opcode's format: Z 8, S 16, V 80, C 280 (R72 to R76). -/
def Opcode.frameBits : Opcode → Nat
  | .configure => 280
  | .getEngine => 8
  | .update => 16
  | .updateBits => 80
  | .finalize => 8
  | .read => 16
  | .bitsRev => 80

/-- The code of a table shape in CTL.SHP and in READ TABLE_SHAPE (R77; spec/10_state.md R31). -/
def Shape.code : Shape → BitVec 2
  | .s256 => 0
  | .s2x16 => 1
  | .s16 => 2

/-- The shape of a code; 3 is reserved (R77). -/
def Shape.ofCode (b : BitVec 2) : Option Shape :=
  match b.toNat with
  | 0 => some .s256
  | 1 => some .s2x16
  | 2 => some .s16
  | _ => none

/-- The number of a selector (spec/44_engine_operations.md R205). -/
def Selector.code : Selector → Byte
  | .bits => 0x00
  | .poly => 0x01
  | .polyRev => 0x02
  | .init => 0x03
  | .xorOut => 0x04
  | .checkValue => 0x05
  | .reflectIn => 0x06
  | .reflectOut => 0x07
  | .mask => 0x08
  | .resultWidth => 0x09
  | .initEff => 0x0A
  | .tableShape => 0x0B
  | .phase => 0x0C

/-- The selector of a number; 0x0D to 0xFF are reserved (R205, R79). -/
def Selector.ofCode (b : Byte) : Option Selector :=
  match b.toNat with
  | 0x00 => some .bits
  | 0x01 => some .poly
  | 0x02 => some .polyRev
  | 0x03 => some .init
  | 0x04 => some .xorOut
  | 0x05 => some .checkValue
  | 0x06 => some .reflectIn
  | 0x07 => some .reflectOut
  | 0x08 => some .mask
  | 0x09 => some .resultWidth
  | 0x0A => some .initEff
  | 0x0B => some .tableShape
  | 0x0C => some .phase
  | _ => none

/-! ### The decoder -/

/-- CONFIGURE's operands (R76, R77): CTL, BITSF, then POLYF, INITF, XOROUTF and CHECKF of eight bytes each. -/
def decodeConfigure (ctl bitsf : Byte) (values : List Byte) : Except Illegal Instr :=
  if ctl.extractLsb 7 5 ≠ 0 then .error .control
  else match Shape.ofCode (ctl.extractLsb 4 3) with
    | none => .error .control
    | some shape => .ok (.configure (ctl.getLsbD 0) (ctl.getLsbD 1) (ctl.getLsbD 2) shape bitsf.toNat
        (wordOfBytes (values.take 8)) (wordOfBytes ((values.drop 8).take 8))
        (wordOfBytes ((values.drop 16).take 8)) (wordOfBytes (values.drop 24)))

/-- The operands N and VALUE of format V (R75), with the bound on N (R79). -/
def decodeCounted (make : Word → Nat → Instr) (n : Byte) (value : List Byte) : Except Illegal Instr :=
  if n.toNat > Config.maxCount then .error .count else .ok (make (wordOfBytes value) n.toNat)

/-- READ's operand (R74, R79). -/
def decodeRead (sel : Byte) : Except Illegal Instr :=
  match Selector.ofCode sel with
  | none => .error .selector
  | some s => .ok (.read s)

/-- The operand bytes of a frame whose length is the opcode's (`decode` has tested it, so the last arm is never reached). -/
def decodeOperands (op : Opcode) (operands : List Byte) : Except Illegal Instr :=
  match op, operands with
  | .configure, ctl :: bitsf :: values => decodeConfigure ctl bitsf values
  | .getEngine, [] => .ok .getEngine
  | .update, [b] => .ok (.update b)
  | .updateBits, n :: value => decodeCounted .updateBits n value
  | .finalize, [] => .ok .finalize
  | .read, [sel] => decodeRead sel
  | .bitsRev, n :: value => decodeCounted .bitsRev n value
  | _, _ => .error .lengthForOpcode

/-- R79 (1): the lengths a command frame can have. -/
def legalLength (len : Nat) : Bool := len == 8 || len == 16 || len == 80 || len == 280

/-- The decoder (R80), its tests in the order of R79. A frame of no whole number of bytes, and one of zero length,
has none of the four lengths. -/
def decode : Frame → Except Illegal Instr
  | .ragged _ _ _ => .error .length
  | .whole [] => .error .length
  | .whole (opByte :: operands) =>
    if legalLength (8 * (operands.length + 1)) then
      match Opcode.ofCode opByte with
      | none => .error .opcode
      | some op =>
        if 8 * (operands.length + 1) = op.frameBits then decodeOperands op operands else .error .lengthForOpcode
    else .error .length

/-! ### The encoder -/

/-- The opcode of a command. -/
def Instr.opcode : Instr → Opcode
  | .configure _ _ _ _ _ _ _ _ _ => .configure
  | .getEngine => .getEngine
  | .update _ => .update
  | .updateBits _ _ => .updateBits
  | .finalize => .finalize
  | .read _ => .read
  | .bitsRev _ _ => .bitsRev

/-- The CTL byte (R77): the reserved bits 7:5 are 0 (R81), then SHP, CP, RO, RI. -/
def controlByte (refin refout checkPresent : Bool) (shape : Shape) : Byte :=
  (0 : BitVec 3) ++ shape.code ++ BitVec.ofBool checkPresent ++ BitVec.ofBool refout ++ BitVec.ofBool refin

/-- The bytes after the opcode (R73 to R77). -/
def Instr.operandBytes : Instr → List Byte
  | .configure refin refout checkPresent shape bits poly init xorout check =>
    controlByte refin refout checkPresent shape :: .ofNat 8 bits ::
      (bytesOfWord poly ++ bytesOfWord init ++ bytesOfWord xorout ++ bytesOfWord check)
  | .getEngine => []
  | .update b => [b]
  | .updateBits v n => .ofNat 8 n :: bytesOfWord v
  | .finalize => []
  | .read sel => [sel.code]
  | .bitsRev v n => .ofNat 8 n :: bytesOfWord v

/-- The frame of a command (R81). -/
def encode (i : Instr) : Frame := .whole (i.opcode.code :: i.operandBytes)

/-! ### The host's view of a table row -/

/-- The `n` low bytes of a number, the most significant first. -/
def bytesOfNumber (n w : Nat) : List Byte := (List.range n).map fun j => .ofNat 8 (w >>> (8 * (n - 1 - j)))

/-- Zero bytes added to a beginning of a frame, up to the length of its opcode's format. -/
def padToFormat : List Byte → List Byte
  | [] => []
  | opByte :: operands =>
    match Opcode.ofCode opByte with
    | none => opByte :: operands
    | some op => opByte :: operands ++ List.replicate (op.frameBits / 8 - (operands.length + 1)) 0

/-- The frame of a row's bits: `w` as spec/opcode_table.json numbers it, which is R71's number of the frame (the opcode byte, delivered
first, is the most significant; log 4). A row of fewer bits than its opcode's format is the frame's beginning, and the operand bytes it leaves out are 0. -/
def frameOfTableWord (nbits w : Nat) : Frame := .whole (padToFormat (bytesOfNumber (nbits / 8) w))

/-- The command this decoder reads from a table row's bits. -/
def decodeTableWord (nbits w : Nat) : Option Instr :=
  match decode (frameOfTableWord nbits w) with
  | .ok i => some i
  | .error _ => none

end Sys2Proof
end

