-- ==== Sys2Proof/Machine/State.lean ====
section
/-! DEFINITION. The state of one block (spec/10_state.md R20) with the two sides of its command port, and the state
after reset (R48). The groups of R20 hang under `Block`, so that an element is present in exactly the block states
that R23 gives it: R23 asks for absence, never for a default. -/

namespace Sys2Proof.Machine

/-- PHASE (spec/10_state.md R44). -/
inductive Phase where
  /-- 0: REG is INITEFF. -/
  | fresh
  /-- 1: one or more UPDATE or UPDATE_BITS since. -/
  | accumulating
  deriving DecidableEq, Repr

/-- CAUSE, the cause of a configuration error (spec/60_exceptions.md R231); no other value is ever written. -/
inductive Cause where
  /-- 1, CFG_BITS: the width is 0 or above 64. -/
  | cfgBits
  /-- 2, CFG_CHECK: the supplied check value is not the computed one. -/
  | cfgCheck
  deriving DecidableEq, Repr

/-- STATUS of a response (spec/30_encoding.md R85); no other code is ever produced. -/
inductive Status where
  | ok | errConfig | errState | errIllegal
  deriving DecidableEq, Repr

/-- A response (spec/30_encoding.md R84). -/
structure Response where
  status : Status
  data : Word
  deriving DecidableEq, Repr

/-- What the host does to the block (spec/70_reset_and_hazards.md R273): apply reset, or present a frame. -/
inductive HostEvent where
  | reset
  | frame (f : Frame)
  deriving DecidableEq, Repr

/-- The lookup tables: exactly one set exists, the one SHAPE names (spec/10_state.md R40). -/
inductive Tables where
  /-- T256. -/
  | t256 (t : Vector Word 256)
  /-- TLO and THI. -/
  | t2x16 (lo hi : Vector Word 16)
  /-- T16. -/
  | t16 (t : Vector Word 16)
  deriving DecidableEq, Repr

/-- The registers CONFIGURE fixes before the tables are built: the configuration but for CHECK, and what is derived from it
(spec/10_state.md R24 to R35; the record `cfg` of spec/44_engine_operations.md R186). -/
structure Cfg where
  /-- BITS (R24), the width, 1 to 64. -/
  bits : Nat
  /-- POLY (R25), direct form, the top coefficient implicit. -/
  poly : Word
  /-- REFIN (R26). -/
  refin : Bool
  /-- REFOUT (R27). -/
  refout : Bool
  /-- INIT (R28), before any reflection. -/
  init : Word
  /-- XOROUT (R29). -/
  xorout : Word
  /-- SHAPE (R31). -/
  shape : Shape
  /-- MASK (R32). -/
  mask : Word
  /-- POLYREV (R33). -/
  polyrev : Word
  /-- RTW (R34), 8, 16, 32 or 64. -/
  rtw : Nat
  /-- INITEFF (R35). -/
  initeff : Word
  deriving DecidableEq, Repr

/-- Everything that has a value in block state R (spec/10_state.md R23). No length, command count or cycle count is among it
(spec/60_exceptions.md R246). -/
structure Ready where
  cfg : Cfg
  tables : Tables
  /-- CHECK (R30). -/
  check : Word
  /-- REG (R42), in canonical form (R43). -/
  reg : Word
  /-- PHASE (R44). -/
  phase : Phase
  deriving DecidableEq, Repr

/-- BSTATE (spec/10_state.md R21), with the elements that have a value in each block state (R23). -/
inductive Block where
  /-- U, unconfigured: nothing else has a value. -/
  | unconfigured
  /-- R, ready. -/
  | ready (r : Ready)
  /-- E, configuration error, with CAUSE (R22). -/
  | configError (cause : Cause)
  deriving DecidableEq, Repr

/-- The operands of a CONFIGURE that an implementation hard-wires (spec/70_reset_and_hazards.md R263). -/
structure Parameters where
  refin : Bool
  refout : Bool
  checkPresent : Bool
  shape : Shape
  bits : Nat
  poly : Word
  init : Word
  xorout : Word
  check : Word
  deriving DecidableEq, Repr

/-- One block and its command port. `stream` and `responses` are the model's own (R20 gives the block no other state than `block`):
the host's program of R274 still to be delivered, and the responses given so far, the first first (log 1). `hardwired` says which block this is: the
configuration its implementation hard-wires, if it does (spec/70_reset_and_hazards.md R263); nothing writes it (log 10). -/
structure State where
  block : Block
  stream : List HostEvent
  responses : List Response
  hardwired : Option Parameters
  deriving DecidableEq, Repr

/-- Why the machine stops with a fault: never. Every frame in every block state has a response (spec/60_exceptions.md R239,
spec/93_implementation_defined.md); the configuration error is taken as a next state (R234). -/
inductive Fault where
  deriving DecidableEq, Repr

/-- Why an instruction has no meaning. -/
inductive Refusal where
  /-- Raised by `exec` for an instruction that is not modelled yet (safe). No arm raises it: every command is modelled. -/
  | notModelled (mnemonic : String)
  deriving DecidableEq, Repr

/-- After reset BSTATE is U and nothing else has a value (spec/10_state.md R48); the host has sent nothing and read nothing (log 1).
The block hard-wires nothing (log 10). -/
def State.reset : State := { block := .unconfigured, stream := [], responses := [], hardwired := none }

end Sys2Proof.Machine
end

