-- ==== Sys2Proof/Machine/Ops.lean ====
section
/-! DEFINITION. The named operations the meanings share: bit masks, table lookup and table building, responding, the gate on BSTATE,
the configuration error (the block's one exception), and taking the host's next event. -/

namespace Sys2Proof.Machine

/-- The outcome of a step of this block. -/
abbrev Result := Host.Outcome State Fault Refusal

/-! ### Bit fields -/

/-- `zext_64` of a byte (spec/00_scope.md R11). -/
abbrev wordOfByte (b : Byte) : Word := b.setWidth 64

/-- `w & 0xFF` as a byte (spec/00_scope.md R13). -/
abbrev lowByte (w : Word) : Byte := w.setWidth 8

/-- `w & 0xF` as a nibble. -/
abbrev lowNibble (w : Word) : Nibble := w.setWidth 4

/-- `b & 0xF` of a byte. -/
abbrev loNibble (b : Byte) : Nibble := b.setWidth 4

/-- `b >> 4` of a byte. -/
abbrev hiNibble (b : Byte) : Nibble := (b >>> 4).setWidth 4

/-- A truth value as the number 0 or 1. -/
abbrev wordOfBit (b : Bool) : Word := if b then 1 else 0

/-! ### Masks and tables -/

/-- `2^n - 1` in 64 bits, for `n` up to 64 (spec/10_state.md R32; the power is taken on naturals, R131). -/
def lowMask (n : Nat) : Word := .ofNat 64 (2 ^ n - 1)

/-- A table of `n` entries by index: every entry written once (spec/42_table_construction.md R140). -/
def tabulate (n : Nat) (entry : Nat → Word) : Vector Word n := ⟨⟨(List.range n).map entry⟩, by simp⟩

/-- `T[i]` of the 256-entry table (spec/00_scope.md R14). -/
def lookup256 (t : Vector Word 256) (i : Byte) : Word := t[i.toNat]

/-- `T[i]` of a 16-entry table (spec/00_scope.md R14). -/
def lookup16 (t : Vector Word 16) (i : Nibble) : Word := t[i.toNat]

/-! ### The codes of the status-like state -/

/-- The number of a cause (spec/60_exceptions.md R231), as CAUSE holds it and a response carries it. -/
def Cause.code : Cause → Word
  | .cfgBits => 1
  | .cfgCheck => 2

/-! ### Responding -/

/-- `respond(status, data)` (spec/00_scope.md R16): one more response, nothing else. -/
def respond (status : Status) (data : Word) (s : State) : State :=
  { s with responses := s.responses ++ [{ status, data }] }

/-- `refuse(ERR_STATE)` (spec/60_exceptions.md R237). -/
def refuseState (s : State) : State := respond .errState 0 s

/-- The ERR_CONFIG refusal in state E, with CAUSE (spec/60_exceptions.md R236). -/
def refuseConfig (cause : Cause) (s : State) : State := respond .errConfig cause.code s

/-- `refuse(ERR_ILLEGAL)` (spec/60_exceptions.md R238). -/
def refuseIllegal (s : State) : State := respond .errIllegal 0 s

/-! ### Writing the block -/

/-- The elements that have a value in state R, written together. -/
def setReady (r : Ready) (s : State) : State := { s with block := .ready r }

/-- `raise ConfigError(cause)` (spec/60_exceptions.md R234): BSTATE and CAUSE are written, every tentative value is dropped, the response
says so. Nothing is saved, no handler runs, and nothing returns from it (R242): only reset leaves state E. -/
def raiseConfigError (cause : Cause) (s : State) : State :=
  respond .errConfig cause.code { s with block := .configError cause }

/-- REG <- INITEFF, PHASE <- Fresh: the engine made Fresh (spec/10_state.md R35, R44). -/
def Ready.makeFresh (r : Ready) : Ready := { r with reg := r.cfg.initeff, phase := .fresh }

/-- REG <- a folded value, PHASE <- Accumulating (spec/44_engine_operations.md R215). -/
def Ready.accumulate (reg : Word) (r : Ready) : Ready := { r with reg, phase := .accumulating }

/-! ### The gate (spec/60_exceptions.md R239) -/

/-- A command that executes in state R only: ERR_STATE in U, ERR_CONFIG with the cause in E. -/
def whenReady (s : State) (run : Ready → State) : Result :=
  match s.block with
  | .unconfigured => .next (refuseState s)
  | .ready r => .next (run r)
  | .configError cause => .next (refuseConfig cause s)

/-- A command that executes in state U only: ERR_STATE in R, ERR_CONFIG with the cause in E. -/
def whenUnconfigured (s : State) (run : State) : Result :=
  match s.block with
  | .unconfigured => .next run
  | .ready _ => .next (refuseState s)
  | .configError cause => .next (refuseConfig cause s)

/-! ### The command port -/

/-- The host's next event, and the state once it is delivered; none when the host presents nothing. -/
def takeEvent (s : State) : Option (HostEvent × State) :=
  match s.stream with
  | [] => none
  | e :: rest => some (e, { s with stream := rest })

/-- The state whose next event is this frame. -/
def presentFrame (f : Frame) (s : State) : State := { s with stream := .frame f :: s.stream }

/-- The state after the host has added these events to its program (spec/70_reset_and_hazards.md R274). -/
def loadProgram (events : List HostEvent) (s : State) : State := { s with stream := s.stream ++ events }

end Sys2Proof.Machine
end

