-- ==== Sys2Proof/Machine/Flags.lean ====
section
/-! DEFINITION. The block has no arithmetic flags (spec/10_state.md R46). Its status-like state is BSTATE, CAUSE and PHASE, and each response has a
status code: this file says how each reads as a number, and which block states a command executes in. -/

namespace Sys2Proof.Machine

/-- BSTATE as its 2 bits (spec/10_state.md R21): U 0, R 1, E 2. -/
def Block.bstate : Block → BitVec 2
  | .unconfigured => 0
  | .ready _ => 1
  | .configError _ => 2

/-- CAUSE, which has a value only in state E (spec/10_state.md R22). -/
def Block.cause? : Block → Option (BitVec 8)
  | .unconfigured => none
  | .ready _ => none
  | .configError cause => some (cause.code.setWidth 8)

/-- The elements that have a value in state R only: config, derived, tables and engine (spec/10_state.md R23). -/
def Block.ready? : Block → Option Ready
  | .unconfigured => none
  | .ready r => some r
  | .configError _ => none

/-- PHASE as READ returns it: 0 Fresh, 1 Accumulating (spec/10_state.md R44). -/
def Phase.code : Phase → Word
  | .fresh => 0
  | .accumulating => 1

/-- A status code (spec/30_encoding.md R85). -/
def Status.code : Status → Byte
  | .ok => 0x00
  | .errConfig => 0x01
  | .errState => 0x02
  | .errIllegal => 0x03

/-- A response as its 72-bit frame: the status byte, then the data word, big-endian (spec/30_encoding.md R84). -/
def Response.frame (r : Response) : Frame := .whole (r.status.code :: bytesOfWord r.data)

/-- The last response given. -/
def State.lastResponse (s : State) : Option Response := s.responses.getLast?

end Sys2Proof.Machine
end

