-- ==== Sys2Proof/Machine/BitReversal.lean ====
section
/-! DEFINITION. Bit reversal (spec/40_bit_reversal.md): the function by its definition (R100), the source's nibble form (R103), and
the command BITS_REV (R106). -/

namespace Sys2Proof.Machine

/-- `bits_rev(value, n)` (R100): the low `n` bits in the opposite order, nothing above. Bit `n` of the value, the next one up, becomes the new bit 0. -/
def bitsRev (value : Word) : Nat → Word
  | 0 => 0
  | n + 1 => (bitsRev value n <<< 1) ||| wordOfBit (value.getLsbD n)

/-- The reversal table of the source, `REV4[i]` (R103). -/
def rev4 (i : Nibble) : Word :=
  (#v[0x0, 0x8, 0x4, 0xC, 0x2, 0xA, 0x6, 0xE, 0x1, 0x9, 0x5, 0xD, 0x3, 0xB, 0x7, 0xF] : Vector Word 16)[i.toNat]

/-- The nibble loop of R103, after `k` nibbles: nibble `k`, the next one up, comes in below. -/
def revNibbles (value : Word) : Nat → Word
  | 0 => 0
  | k + 1 => (revNibbles value k <<< 4) ||| rev4 (lowNibble (value >>> (4 * k)))

/-- `bits_rev_nibble(value, n)` (R103): whole nibbles, then a shift back by the bits taken too many. -/
def bitsRevNibble (value : Word) (n : Nat) : Word :=
  let acc := revNibbles value ((n + 3) / 4)
  if n % 4 ≠ 0 then acc >>> (4 - n % 4) else acc

/-- BITS_REV `v`, `n` (R106): accepted in every block state, and it touches none. -/
def execBitsRev (v : Word) (n : Nat) (s : State) : Result := .next (respond .ok (bitsRev v n) s)

end Sys2Proof.Machine
end

