-- ==== Sys2Proof/Machine/Operands.lean ====
section
/-! DEFINITION. Operands: the order in which data bits are folded (spec/20_memory.md R51, R52), the truncation of CONFIGURE's operands
and the registers derived from them (spec/10_state.md R24 to R35), and what each selector of READ names. -/

namespace Sys2Proof.Machine

/-! ### Data bits in fold order -/

/-- `bit(v,0), bit(v,1), ..., bit(v,n-1)`. -/
def bitsUp (v : Word) (n : Nat) : List Bool := (List.range n).map fun i => v.getLsbD i

/-- `bit(v,n-1), bit(v,n-2), ..., bit(v,0)`. -/
def bitsDown (v : Word) (n : Nat) : List Bool := (List.range n).map fun i => v.getLsbD (n - 1 - i)

/-- The low `n` bits of `v` in the order they are folded: upward when REFIN = 1, downward when REFIN = 0 (spec/20_memory.md R52). -/
def dataBits (refin : Bool) (v : Word) (n : Nat) : List Bool := if refin then bitsUp v n else bitsDown v n

/-- The ASCII bytes of a text (spec/00_scope.md R17), each the character's code. DESIGN CHOICE for a character outside ASCII, of which the spec
does not speak: the low 8 bits of its code point (log 9). -/
def asciiBytes (text : List Char) : List Byte := text.map fun c => .ofNat 8 c.toNat

/-! ### CONFIGURE's operands -/

/-- RTW: the smallest of 8, 16, 32, 64 that is at least the width (spec/10_state.md R34). -/
def resultWidth (bits : Nat) : Nat :=
  if bits ≤ 8 then 8 else if bits ≤ 16 then 16 else if bits ≤ 32 then 32 else 64

/-- INITEFF (spec/10_state.md R35). -/
def initialRegister (refin : Bool) (init : Word) (bits : Nat) : Word :=
  if refin then bitsRev init bits else init

/-- The tentative configuration of spec/44_engine_operations.md R186: operands cut to the width, derived registers computed. REFOUT is written
from `ro` like the rest (log 3). -/
def makeCfg (refin refout : Bool) (shape : Shape) (bits : Nat) (poly init xorout : Word) : Cfg :=
  let m := lowMask bits
  { bits, mask := m, poly := poly &&& m, refin, refout, init := init &&& m, xorout := xorout &&& m, shape
    polyrev := bitsRev (poly &&& m) bits
    rtw := resultWidth bits
    initeff := initialRegister refin (init &&& m) bits }

/-- The widths CONFIGURE accepts (spec/10_state.md R24). -/
def legalWidth (bits : Nat) : Bool := 1 ≤ bits && bits ≤ Config.maxBits

/-! ### READ's selectors -/

/-- `value(sel)` (spec/44_engine_operations.md R205). -/
def readValue (r : Ready) : Selector → Word
  | .bits => .ofNat 64 r.cfg.bits
  | .poly => r.cfg.poly
  | .polyRev => r.cfg.polyrev
  | .init => r.cfg.init
  | .xorOut => r.cfg.xorout
  | .checkValue => r.check
  | .reflectIn => wordOfBit r.cfg.refin
  | .reflectOut => wordOfBit r.cfg.refout
  | .mask => r.cfg.mask
  | .resultWidth => .ofNat 64 r.cfg.rtw
  | .initEff => r.cfg.initeff
  | .tableShape => r.cfg.shape.code.setWidth 64
  | .phase => r.phase.code

end Sys2Proof.Machine
end

