-- ==== Sys2Proof/Machine/Recurrence.lean ====
section
/-! DEFINITION. The slow recurrence and the folding functions (spec/41_slow_recurrence.md): what the block computes. A configuration
is an argument where the spec leaves it implicit (spec/00_scope.md R15). Words of 64 bits hold every intermediate value: the left shifts are
followed by a mask of at most 64 bits, and the working values of narrow registers need 8 (R131). -/

namespace Sys2Proof.Machine

/-- `v` when `t` is 1, 0 otherwise: the conditional operand of the recurrences. -/
def gated (t : Bool) (v : Word) : Word := if t then v else 0

/-! ### One bit -/

/-- `step_r(c, d)` (R115). -/
def stepR (cfg : Cfg) (c : Word) (d : Bool) : Word :=
  (c >>> 1) ^^^ gated (c.getLsbD 0 ^^ d) cfg.polyrev

/-- `step_d(c, d)` (R116). -/
def stepD (cfg : Cfg) (c : Word) (d : Bool) : Word :=
  ((c <<< 1) &&& cfg.mask) ^^^ gated (c.getLsbD (cfg.bits - 1) ^^ d) cfg.poly

/-- `step(c, d)` (R117). -/
def stepBit (cfg : Cfg) (c : Word) (d : Bool) : Word := if cfg.refin then stepR cfg c d else stepD cfg c d

/-- `fold_seq(c, s)`, the first bit first (R117). -/
def foldSeq (cfg : Cfg) (c : Word) (ds : List Bool) : Word := ds.foldl (stepBit cfg) c

/-! ### One byte or part of a byte -/

/-- One iteration of R120's loop. -/
def shiftR (cfg : Cfg) (crc : Word) : Word := (crc >>> 1) ^^^ gated (crc.getLsbD 0) cfg.polyrev

/-- One iteration of R121's loop. -/
def shiftD (cfg : Cfg) (crc : Word) : Word :=
  ((crc <<< 1) &&& cfg.mask) ^^^ gated (crc.getLsbD (cfg.bits - 1)) cfg.poly

/-- One iteration of R122's loop on the 8-bit working value. -/
def shiftD8 (p8 c8 : Word) : Word := ((c8 <<< 1) &&& 0xFF) ^^^ gated (c8.getLsbD 7) p8

/-- `calc_byte`, reflected input (R120): the data is the low `n` bits of `inp`, which has nothing above. -/
def calcByteR (cfg : Cfg) (crcIn : Word) (inp : Byte) (n : Nat) : Word :=
  (shiftR cfg)^[n] (crcIn ^^^ wordOfByte inp)

/-- `calc_byte`, direct input, BITS >= 8 (R121): the data is the top `n` bits of `inp`, which has nothing below. -/
def calcByteDWide (cfg : Cfg) (crcIn : Word) (inp : Byte) (n : Nat) : Word :=
  (shiftD cfg)^[n] (crcIn ^^^ (wordOfByte inp <<< (cfg.bits - 8)))

/-- `calc_byte`, direct input, BITS < 8 (R122), on the register left-aligned in 8 bits. -/
def calcByteDNarrow (cfg : Cfg) (crcIn : Word) (inp : Byte) (n : Nat) : Word :=
  let k := 8 - cfg.bits
  ((shiftD8 (cfg.poly <<< k))^[n] ((crcIn <<< k) ^^^ wordOfByte inp)) >>> k

/-- `calc_byte_d` (R121, R122). -/
def calcByteD (cfg : Cfg) (crcIn : Word) (inp : Byte) (n : Nat) : Word :=
  if cfg.bits < 8 then calcByteDNarrow cfg crcIn inp n else calcByteDWide cfg crcIn inp n

/-- `calc_byte(c, in, n_bits)` (R123). -/
def calcByte (cfg : Cfg) (crcIn : Word) (inp : Byte) (n : Nat) : Word :=
  if cfg.refin then calcByteR cfg crcIn inp n else calcByteD cfg crcIn inp n

/-- `fold_byte(c, b)` (R124). -/
def foldByte (cfg : Cfg) (c : Word) (b : Byte) : Word := calcByte cfg c b 8

/-- `fold_bytes(c, B)`, the first byte first (R124). -/
def foldBytes (cfg : Cfg) (c : Word) (bs : List Byte) : Word := bs.foldl (foldByte cfg) c

/-! ### A bit string -/

/-- `fold_bits(c, v, n)` (R125). -/
def foldBits (cfg : Cfg) (c v : Word) (n : Nat) : Word := foldSeq cfg c (dataBits cfg.refin v n)

end Sys2Proof.Machine
end

