-- ==== Sys2Proof/Machine/TableBuild.lean ====
section
/-! DEFINITION. The lookup tables of the three shapes (spec/42_table_construction.md), each entry by `calc_byte` from a zero register. -/

namespace Sys2Proof.Machine

/-- The alignment shift `k` (R141). -/
def Cfg.align (cfg : Cfg) : Nat := if !cfg.refin && cfg.bits < 8 then 8 - cfg.bits else 0

/-- The working width `WB` (R141). -/
def Cfg.workBits (cfg : Cfg) : Nat := if cfg.refin then cfg.bits else max cfg.bits 8

/-- `WMASK` (R141). -/
def Cfg.workMask (cfg : Cfg) : Word := lowMask cfg.workBits

/-- `T256[b]` (R142). -/
def entry256 (cfg : Cfg) (b : Nat) : Word := calcByte cfg 0 (.ofNat 8 b) 8 <<< cfg.align

/-- `TLO[i]` (R144). -/
def entryLo (cfg : Cfg) (i : Nat) : Word := calcByte cfg 0 (.ofNat 8 i) 8 <<< cfg.align

/-- `THI[i]` (R144): the byte `i << 4`. -/
def entryHi (cfg : Cfg) (i : Nat) : Word := calcByte cfg 0 (.ofNat 8 (i <<< 4)) 8 <<< cfg.align

/-- `T16[i]` (R146): the nibble `i` against a zero register. -/
def entry16 (cfg : Cfg) (i : Nat) : Word :=
  if cfg.refin then calcByte cfg 0 (.ofNat 8 i) 4 else calcByte cfg 0 (.ofNat 8 i) 8 <<< cfg.align

/-- `build_tables()` (R149): the one set SHAPE names. -/
def buildTables (cfg : Cfg) : Tables :=
  match cfg.shape with
  | .s256 => .t256 (tabulate 256 (entry256 cfg))
  | .s2x16 => .t2x16 (tabulate 16 (entryLo cfg)) (tabulate 16 (entryHi cfg))
  | .s16 => .t16 (tabulate 16 (entry16 cfg))

end Sys2Proof.Machine
end

