-- ==== Sys2Proof/Machine/FastPath.lean ====
section
/-! DEFINITION. The fast, table-driven recurrence (spec/43_fast_recurrence.md). Its lookups read the tables that State holds, so UPDATE, UPDATE_BITS and
CONFIGURE's self-check run on them as the block does; that they compute what the slow recurrence says (R175) is a claim about
states whose tables are the built ones. -/

namespace Sys2Proof.Machine

/-- `lut8(y)` (R160), with the lookups of the shape whose tables exist. -/
def lut8 (cfg : Cfg) (tables : Tables) (y : Byte) : Word :=
  match tables with
  | .t256 t => lookup256 t y
  | .t2x16 lo hi => lookup16 lo (loNibble y) ^^^ lookup16 hi (hiNibble y)
  | .t16 t =>
    if cfg.refin then
      let c1 := lookup16 t (loNibble y)
      (c1 >>> 4) ^^^ lookup16 t (lowNibble c1 ^^^ (hiNibble y))
    else
      let c1 := lookup16 t (hiNibble y)
      ((c1 <<< 4) &&& cfg.workMask) ^^^ lookup16 t (lowNibble (c1 >>> (cfg.workBits - 4)) ^^^ (loNibble y))

/-- The working form `W = c << k` of a register (R161). -/
def Cfg.toWork (cfg : Cfg) (c : Word) : Word := c <<< cfg.align

/-- The register of a working form, `W >> k` (R161). -/
def Cfg.ofWork (cfg : Cfg) (w : Word) : Word := w >>> cfg.align

/-! ### One byte -/

/-- `fast_byte_r(c, b)` (R162). -/
def fastByteR (cfg : Cfg) (tables : Tables) (c : Word) (b : Byte) : Word :=
  if cfg.bits ≤ 8 then lut8 cfg tables (lowByte c ^^^ b)
  else (c >>> 8) ^^^ lut8 cfg tables (lowByte c ^^^ b)

/-- `fast_byte_d(c, b)` (R163). -/
def fastByteD (cfg : Cfg) (tables : Tables) (c : Word) (b : Byte) : Word :=
  let w := cfg.toWork c
  cfg.ofWork (((w <<< 8) &&& cfg.workMask) ^^^ lut8 cfg tables (lowByte (w >>> (cfg.workBits - 8)) ^^^ b))

/-- One fast byte step in the mode REFIN names (R166). -/
def fastByte (cfg : Cfg) (tables : Tables) (c : Word) (b : Byte) : Word :=
  if cfg.refin then fastByteR cfg tables c b else fastByteD cfg tables c b

/-- `nib_r(c, x)` (R168). -/
def nibR (t : Vector Word 16) (c : Word) (x : Nibble) : Word := (c >>> 4) ^^^ lookup16 t (lowNibble c ^^^ x)

/-- `nib_d(W, x)` (R168). -/
def nibD (cfg : Cfg) (t : Vector Word 16) (w : Word) (x : Nibble) : Word :=
  ((w <<< 4) &&& cfg.workMask) ^^^ lookup16 t (lowNibble (w >>> (cfg.workBits - 4)) ^^^ x)

/-- The nibble-at-a-time byte step of the 16-entry shape (R168), the alternative to `fastByte`. -/
def nibbleByte (cfg : Cfg) (t : Vector Word 16) (c : Word) (b : Byte) : Word :=
  if cfg.refin then nibR t (nibR t c (loNibble b)) (hiNibble b)
  else cfg.ofWork (nibD cfg t (nibD cfg t (cfg.toWork c) (hiNibble b)) (loNibble b))

/-! ### Part of a byte -/

/-- `fast_part_r(c, d, r)` (R164). -/
def fastPartR (cfg : Cfg) (tables : Tables) (c d : Word) (r : Nat) : Word :=
  let x := (c ^^^ d) &&& lowMask r
  (c >>> r) ^^^ lut8 cfg tables (lowByte (x <<< (8 - r)))

/-- `fast_part_d(c, d, r)` (R165). -/
def fastPartD (cfg : Cfg) (tables : Tables) (c d : Word) (r : Nat) : Word :=
  let w := cfg.toWork c
  let x := ((w >>> (cfg.workBits - r)) ^^^ d) &&& lowMask r
  cfg.ofWork (((w <<< r) &&& cfg.workMask) ^^^ lut8 cfg tables (lowByte x))

/-! ### Sequences -/

/-- `fast_fold_bytes(c, B)` (R166). -/
def fastFoldBytes (cfg : Cfg) (tables : Tables) (c : Word) (bs : List Byte) : Word := bs.foldl (fastByte cfg tables) c

/-- The whole bytes of `fast_fold_bits`, reflected: `q` bytes of `u`, the low one first (R167). -/
def wholeBytesUp (u : Word) (q : Nat) : List Byte := (List.range q).map fun i => lowByte (u >>> (8 * i))

/-- The whole bytes of `fast_fold_bits`, direct: the low `q` bytes of `v`, the top one first (R167). -/
def wholeBytesDown (v : Word) (q : Nat) : List Byte := (List.range q).map fun i => lowByte (v >>> (8 * (q - 1 - i)))

/-- `fast_fold_bits(c, v, n)`, reflected (R167): the leading bits first, then whole bytes. -/
def fastFoldBitsR (cfg : Cfg) (tables : Tables) (c v : Word) (n : Nat) : Word :=
  let r := n % 8
  let c' := if r > 0 then fastPartR cfg tables c (v &&& lowMask r) r else c
  (wholeBytesUp (v >>> r) (n / 8)).foldl (fastByteR cfg tables) c'

/-- `fast_fold_bits(c, v, n)`, direct (R167). -/
def fastFoldBitsD (cfg : Cfg) (tables : Tables) (c v : Word) (n : Nat) : Word :=
  let r := n % 8
  let c' := if r > 0 then fastPartD cfg tables c ((v >>> (n - r)) &&& lowMask r) r else c
  (wholeBytesDown v (n / 8)).foldl (fastByteD cfg tables) c'

/-- `fast_fold_bits(c, v, n)` (R167). -/
def fastFoldBits (cfg : Cfg) (tables : Tables) (c v : Word) (n : Nat) : Word :=
  if cfg.refin then fastFoldBitsR cfg tables c v n else fastFoldBitsD cfg tables c v n

end Sys2Proof.Machine
end

