-- ==== Sys2Proof/Machine/Engine.lean ====
section
/-! DEFINITION. The full algorithm and its commands CONFIGURE, GET_ENGINE, UPDATE, UPDATE_BITS, FINALIZE and READ
(spec/44_engine_operations.md), each behind the gate of spec/60_exceptions.md R239; and reset, which may end in an implicit CONFIGURE. -/

namespace Sys2Proof.Machine

/-! ### The pure functions of the full algorithm -/

/-- The output transform `final(c)` (R198): reversal when the two reflections differ, XOR, mask. It reads the configuration and the register
alone, never a message length (spec/60_exceptions.md R246). -/
def final (cfg : Cfg) (c : Word) : Word :=
  ((if cfg.refin != cfg.refout then bitsRev c cfg.bits else c) ^^^ cfg.xorout) &&& cfg.mask

/-- `crc_of(B)` by the slow recurrence (R187). -/
def crcOf (cfg : Cfg) (bs : List Byte) : Word := final cfg (foldBytes cfg cfg.initeff bs)

/-- `crc_of_bits(v, n)` by the slow recurrence (R187). -/
def crcOfBits (cfg : Cfg) (v : Word) (n : Nat) : Word := final cfg (foldBits cfg cfg.initeff v n)

/-- `crc_of(B)` through the tables, as the self-check runs it (R186). -/
def tableCrcOf (cfg : Cfg) (tables : Tables) (bs : List Byte) : Word :=
  final cfg (fastFoldBytes cfg tables cfg.initeff bs)

/-! ### CONFIGURE -/

/-- The elements a successful CONFIGURE commits (R186; spec/10_state.md R49). -/
def readyFrom (cfg : Cfg) : Ready :=
  let tables := buildTables cfg
  { cfg, tables, check := tableCrcOf cfg tables Config.checkString, reg := cfg.initeff, phase := .fresh }

/-- CONFIGURE (R186), in state U: the width is tested first, then the tables are built and the self-check is run on them. -/
def configureBlock (refin refout checkPresent : Bool) (shape : Shape) (bits : Nat) (poly init xorout check : Word)
    (s : State) : State :=
  if legalWidth bits then
    let r := readyFrom (makeCfg refin refout shape bits poly init xorout)
    if checkPresent && check != r.check then raiseConfigError .cfgCheck s else respond .ok 0 (setReady r s)
  else raiseConfigError .cfgBits s

/-- CONFIGURE (R186). -/
def execConfigure (refin refout checkPresent : Bool) (shape : Shape) (bits : Nat) (poly init xorout check : Word)
    (s : State) : Result :=
  whenUnconfigured s (configureBlock refin refout checkPresent shape bits poly init xorout check s)

/-! ### The commands of state R -/

/-- GET_ENGINE (R190). -/
def execGetEngine (s : State) : Result :=
  whenReady s fun r => respond .ok 0 (setReady r.makeFresh s)

/-- UPDATE `b` (R192), through the tables. -/
def execUpdate (b : Byte) (s : State) : Result :=
  whenReady s fun r => respond .ok 0 (setReady (r.accumulate (fastByte r.cfg r.tables r.reg b)) s)

/-- UPDATE_BITS `v`, `n` (R195), through the tables. -/
def execUpdateBits (v : Word) (n : Nat) (s : State) : Result :=
  whenReady s fun r => respond .ok 0 (setReady (r.accumulate (fastFoldBits r.cfg r.tables r.reg v n)) s)

/-- FINALIZE (R199): the response carries the CRC, the engine is made Fresh. -/
def execFinalize (s : State) : Result :=
  whenReady s fun r => respond .ok (final r.cfg r.reg) (setReady r.makeFresh s)

/-- READ `sel` (R205): no state is written. -/
def execRead (sel : Selector) (s : State) : Result :=
  whenReady s fun r => respond .ok (readValue r sel) s

/-! ### Reset -/

/-- The block as it leaves reset (spec/70_reset_and_hazards.md R260, R263): BSTATE is U and no other element has a value; when the
implementation hard-wires a configuration, an implicit CONFIGURE of it follows, which ends in R or E. -/
def launchBlock : Option Parameters → Block
  | none => .unconfigured
  | some p =>
    (configureBlock p.refin p.refout p.checkPresent p.shape p.bits p.poly p.init p.xorout p.check State.reset).block

/-- Reset (spec/70_reset_and_hazards.md R260): every element takes its launch value. It is no command, so it is not answered, not even the
implicit CONFIGURE of R263; the host's side is not the block's. -/
def resetBlock (s : State) : State := { s with block := launchBlock s.hardwired }

/-- The state in which an implementation that hard-wires `h` starts (spec/70_reset_and_hazards.md R263); for none, State.reset. -/
def launchState (h : Option Parameters) : State := resetBlock { State.reset with hardwired := h }

end Sys2Proof.Machine
end

