-- ==== Sys2Proof/Machine/Dispatch.lean ====
section
/-! DEFINITION. Which meaning runs for which command. -/

namespace Sys2Proof.Machine

def exec (i : Instr) (s : State) : Host.Outcome State Fault Refusal :=
  match i with
  | .configure refin refout checkPresent shape bits poly init xorout check => Sys2Proof.Machine.execConfigure refin refout checkPresent shape bits poly init xorout check s
  | .getEngine => Sys2Proof.Machine.execGetEngine s
  | .update b => Sys2Proof.Machine.execUpdate b s
  | .updateBits v n => Sys2Proof.Machine.execUpdateBits v n s
  | .finalize => Sys2Proof.Machine.execFinalize s
  | .read sel => Sys2Proof.Machine.execRead sel s
  | .bitsRev v n => Sys2Proof.Machine.execBitsRev v n s

end Sys2Proof.Machine
end

