-- ==== Sys2Proof/Machine/Step.lean ====
section
/-! DEFINITION. One step of the machine: the host's next event, delivered and answered (spec/20_memory.md R61; spec/44_engine_operations.md R185). -/

namespace Sys2Proof.Machine

/-- One step. No event: the block stays as it is (log 1). Reset: R260. A frame: decoded, and executed or refused as illegal
(spec/60_exceptions.md R239), a frame of zero length as any other of a wrong length (log 2). -/
def step (s : State) : Host.Outcome State Fault Refusal :=
  match takeEvent s with
  | none => .next s
  | some (.reset, s') => .next (resetBlock s')
  | some (.frame f, s') =>
    match decode f with
    | .error _ => .next (refuseIllegal s')
    | .ok i => exec i s'

/-- The state whose next step runs the instruction with these bits: the host presents its frame next. -/
def State.withFetchWord (s : State) (nbits w : Nat) : State := presentFrame (frameOfTableWord nbits w) s

end Sys2Proof.Machine
end

