-- ==== Sys2Proof/Machine/Pseudo.lean ====
section
/-! DEFINITION. Pseudo-operations and the assembler's language (spec/30_encoding.md R82, R83): an abstract syntax, its expansion into commands, and what
running an expansion does (spec/44_engine_operations.md R210). No part of it is a command of the block; Assembler.lean reads its written form. -/

namespace Sys2Proof.Machine

/-- One line of the assembler's language: a command, or a pseudo-operation (R82, R83). -/
inductive Asm where
  | configure (bits : Nat) (poly : Word) (refin refout : Bool) (init xorout : Word) (check : Option Word) (shape : Option Shape)
  | getEngine
  | update (b : Byte)
  | updateBits (v : Word) (n : Nat)
  | finalize
  | read (sel : Selector)
  | bitsRev (v : Word) (n : Nat)
  | updateBytes (bs : List Byte)
  | updateStr (text : List Char)
  | calcBytes (bs : List Byte)
  | calcBits (v : Word) (n : Nat)
  deriving DecidableEq, Repr

/-! ### Expansion -/

/-- `UPDATE_BYTES`: one UPDATE a byte, none for no byte (R83). -/
def updateBytes (bs : List Byte) : List Instr := bs.map .update

/-- `CALC` (R83). -/
def calcBytes (bs : List Byte) : List Instr := [.getEngine] ++ updateBytes bs ++ [.finalize]

/-- `CALC_BITS` (R83). -/
def calcBits (v : Word) (n : Nat) : List Instr := [.getEngine, .updateBits v n, .finalize]

/-- CONFIGURE with its optional operands: an omitted check is CP = 0 and CHECKF = 0, an omitted shape is the 256-entry one (R82). -/
def assembleConfigure (bits : Nat) (poly : Word) (refin refout : Bool) (init xorout : Word) (check : Option Word)
    (shape : Option Shape) : Instr :=
  .configure refin refout check.isSome (shape.getD .s256) bits poly init xorout (check.getD 0)

/-- The commands a line stands for (R82, R83). -/
def assemble : Asm → List Instr
  | .configure bits poly refin refout init xorout check shape =>
    [assembleConfigure bits poly refin refout init xorout check shape]
  | .getEngine => [.getEngine]
  | .update b => [.update b]
  | .updateBits v n => [.updateBits v n]
  | .finalize => [.finalize]
  | .read sel => [.read sel]
  | .bitsRev v n => [.bitsRev v n]
  | .updateBytes bs => updateBytes bs
  | .updateStr text => updateBytes (asciiBytes text)
  | .calcBytes bs => calcBytes bs
  | .calcBits v n => calcBits v n

/-- Commands one after another; a refused one does not stop the later ones (R210). -/
def execAll : List Instr → State → Result
  | [], s => .next s
  | i :: rest, s =>
    match exec i s with
    | .next t => execAll rest t
    | .fault r => .fault r
    | .refused r => .refused r

/-- The host's events that send these commands. -/
def eventsOf (is : List Instr) : List HostEvent := is.map fun i => .frame (encode i)

end Sys2Proof.Machine
end

