-- ==== Sys2Proof/Machine/Assembler.lean ====
section
/-! DEFINITION. The written form of the assembler's language (spec/30_encoding.md R82, R83): reading one line of text, and one written response. -/

namespace Sys2Proof.Machine

/-- The value of a digit below the base. -/
def digitOf (base : Nat) (c : Char) : Option Nat :=
  let n := c.toNat
  let d := if 48 ≤ n ∧ n ≤ 57 then some (n - 48)
    else if 65 ≤ n ∧ n ≤ 70 then some (n - 55)
    else if 97 ≤ n ∧ n ≤ 102 then some (n - 87)
    else none
  d.bind fun v => if v < base then some v else none

/-- Digits, the most significant first. -/
def digitsOf (base : Nat) : Nat → List Char → Option Nat
  | acc, [] => some acc
  | acc, c :: cs => (digitOf base c).bind fun d => digitsOf base (acc * base + d) cs

/-- A number, decimal or `0x` hexadecimal (R82). -/
def numberOf : List Char → Option Nat
  | [] => none
  | '0' :: 'x' :: c :: cs => digitsOf 16 0 (c :: cs)
  | c :: cs => digitsOf 10 0 (c :: cs)

/-- A number below a bound. -/
def numberBelow (bound : Nat) (cs : List Char) : Option Nat :=
  (numberOf cs).bind fun n => if n < bound then some n else none

/-- A 64-bit value. -/
def wordOfText (cs : List Char) : Option Word := (numberBelow (2 ^ 64) cs).map (.ofNat 64)

/-- A byte. -/
def byteOfText (cs : List Char) : Option Byte := (numberBelow 256 cs).map (.ofNat 8)

/-- A flag, 0 or 1. -/
def flagOfText (cs : List Char) : Option Bool := (numberBelow 2 cs).map (· == 1)

/-- A count, 0 to 64 (R75). -/
def countOfText : List Char → Option Nat := numberBelow (Config.maxCount + 1)

/-- A line cut at its spaces, each comma a piece of its own. -/
def piecesOf : List Char → List Char → List (List Char)
  | acc, [] => if acc.isEmpty then [] else [acc.reverse]
  | acc, c :: cs =>
    let done := if acc.isEmpty then [] else [acc.reverse]
    if c = ' ' then done ++ piecesOf [] cs
    else if c = ',' then done ++ [','] :: piecesOf [] cs
    else piecesOf (c :: acc) cs

/-- The value of a piece `key=value`. -/
def valueOf : List Char → List Char → Option (List Char)
  | [], '=' :: cs => some cs
  | k :: ks, c :: cs => if k = c then valueOf ks cs else none
  | _, _ => none

/-- A selector's name (spec/44_engine_operations.md R205). -/
def Selector.name : Selector → List Char
  | .bits => "BITS".toList
  | .poly => "POLY".toList
  | .polyRev => "POLY_REV".toList
  | .init => "INIT".toList
  | .xorOut => "XOR_OUT".toList
  | .checkValue => "CHECK_VALUE".toList
  | .reflectIn => "REFLECT_IN".toList
  | .reflectOut => "REFLECT_OUT".toList
  | .mask => "MASK".toList
  | .resultWidth => "RESULT_WIDTH".toList
  | .initEff => "INIT_EFF".toList
  | .tableShape => "TABLE_SHAPE".toList
  | .phase => "PHASE".toList

/-- Every selector. -/
def allSelectors : List Selector :=
  [.bits, .poly, .polyRev, .init, .xorOut, .checkValue, .reflectIn, .reflectOut, .mask, .resultWidth, .initEff, .tableShape, .phase]

/-- A selector by name or number (R82). -/
def selectorOfText (cs : List Char) : Option Selector :=
  match allSelectors.find? fun sel => Selector.name sel == cs with
  | some sel => some sel
  | none => (byteOfText cs).bind Selector.ofCode

/-- A table shape by its size, 256, 32 or 16 (R82). -/
def shapeOfText (cs : List Char) : Option Shape :=
  match numberOf cs with
  | some 256 => some .s256
  | some 32 => some .s2x16
  | some 16 => some .s16
  | _ => none

/-- The optional operands of CONFIGURE: none, a check, a shape, or both in that order (R82). -/
def optionsOfText : List (List Char) → Option (Option Word × Option Shape)
  | [] => some (none, none)
  | [a] =>
    match valueOf ("check".toList) a with
    | some c => (wordOfText c).map fun v => (some v, none)
    | none => (valueOf ("shape".toList) a).bind fun c => (shapeOfText c).map fun v => (none, some v)
  | [a, b] => do
    let check ← (valueOf ("check".toList) a).bind wordOfText
    let shape ← (valueOf ("shape".toList) b).bind shapeOfText
    return (some check, some shape)
  | _ => none

/-- CONFIGURE's operands, in the order of R82. -/
def configureOfText : List (List Char) → Option Asm
  | bits :: poly :: refin :: refout :: init :: xorout :: rest => do
    let bits ← (valueOf ("bits".toList) bits).bind (numberBelow 256)
    let poly ← (valueOf ("poly".toList) poly).bind wordOfText
    let refin ← (valueOf ("refin".toList) refin).bind flagOfText
    let refout ← (valueOf ("refout".toList) refout).bind flagOfText
    let init ← (valueOf ("init".toList) init).bind wordOfText
    let xorout ← (valueOf ("xorout".toList) xorout).bind wordOfText
    let (check, shape) ← optionsOfText rest
    return .configure bits poly refin refout init xorout check shape
  | _ => none

/-- `<value>, <n>`. -/
def countedOfText (make : Word → Nat → Asm) : List (List Char) → Option Asm
  | [v, [','], n] => do return make (← wordOfText v) (← countOfText n)
  | _ => none

/-- `b0, b1, ...`, possibly none (R83). -/
def bytesOfText : List (List Char) → Option (List Byte)
  | [] => some []
  | [b] => (byteOfText b).map fun v => [v]
  | b :: [','] :: c :: rest => do return (← byteOfText b) :: (← bytesOfText (c :: rest))
  | _ => none

/-- The bytes of `UPDATE_STR "text"`: what stands between the quotes, taken from the rest of the line (R83). -/
def quotedOfText : List Char → Option (List Char)
  | [] => none
  | c :: cs =>
    match cs.reverse with
    | [] => none
    | d :: body => if c.toNat = 34 ∧ d.toNat = 34 then some body.reverse else none

/-- The operands of a line, by its mnemonic (R82, R83). -/
def operandsOfText (mnemonic : List Char) (ops : List (List Char)) : Option Asm :=
  if mnemonic = "CONFIGURE".toList then configureOfText ops
  else if mnemonic = "GET_ENGINE".toList then (if ops = [] then some .getEngine else none)
  else if mnemonic = "UPDATE".toList then
    (match ops with | [b] => (byteOfText b).map .update | _ => none)
  else if mnemonic = "UPDATE_BITS".toList then countedOfText .updateBits ops
  else if mnemonic = "FINALIZE".toList then (if ops = [] then some .finalize else none)
  else if mnemonic = "READ".toList then
    (match ops with | [sel] => (selectorOfText sel).map .read | _ => none)
  else if mnemonic = "BITS_REV".toList then countedOfText .bitsRev ops
  else if mnemonic = "UPDATE_BYTES".toList then (bytesOfText ops).map .updateBytes
  else if mnemonic = "CALC".toList then (bytesOfText ops).map .calcBytes
  else if mnemonic = "CALC_BITS".toList then countedOfText .calcBits ops
  else none

/-- The rest of a line after a beginning. -/
def afterPrefix : List Char → List Char → Option (List Char)
  | [], cs => some cs
  | p :: ps, c :: cs => if p = c then afterPrefix ps cs else none
  | _ :: _, [] => none

/-- One line of the language (R82, R83). -/
def parseLine (line : List Char) : Option Asm :=
  match afterPrefix "UPDATE_STR ".toList line with
  | some rest => (quotedOfText rest).map .updateStr
  | none =>
    match piecesOf [] line with
    | [] => none
    | mnemonic :: ops => operandsOfText mnemonic ops

/-- The status a name stands for (spec/30_encoding.md R85). -/
def statusOfText (cs : List Char) : Option Status :=
  if cs = "OK".toList then some .ok
  else if cs = "ERR_CONFIG".toList then some .errConfig
  else if cs = "ERR_STATE".toList then some .errState
  else if cs = "ERR_ILLEGAL".toList then some .errIllegal
  else none

/-- A response as it is written, `-> STATUS` or `-> STATUS, <data>` (R82); data that is not written is 0. -/
def parseResponse (line : List Char) : Option Response :=
  match piecesOf [] line with
  | [['-', '>'], status] => (statusOfText status).map fun st => { status := st, data := 0 }
  | [['-', '>'], status, [','], data] => do return { status := ← statusOfText status, data := ← wordOfText data }
  | _ => none

end Sys2Proof.Machine
end

