-- ==== Sys2Proof/Safety.lean ====
section
/-! DEFINITION. What holds of every state a block can be in: the legal configurations (spec/10_state.md R24 to R35), the invariant of a ready block
(R30, R40, R42, R44), and the states that a run from reset reaches (spec/70_reset_and_hazards.md R274). A block has no unsafe run: it never stops
(spec/60_exceptions.md R239), so what a claim can ask for is that the invariant holds. -/

namespace Sys2Proof.Machine

/-- `v` is an `n`-wide value (spec/00_scope.md R11). -/
abbrev Fits (v : Word) (n : Nat) : Prop := v.toNat < 2 ^ n

/-- A legal configuration with its derived registers. -/
structure Cfg.Legal (cfg : Cfg) : Prop where
  /-- R24. -/
  width : 1 ≤ cfg.bits ∧ cfg.bits ≤ Config.maxBits
  /-- R25. -/
  poly : Fits cfg.poly cfg.bits
  /-- R28. -/
  init : Fits cfg.init cfg.bits
  /-- R29. -/
  xorout : Fits cfg.xorout cfg.bits
  /-- R32. -/
  mask : cfg.mask = lowMask cfg.bits
  /-- R33. -/
  polyrev : cfg.polyrev = bitsRev cfg.poly cfg.bits
  /-- R34. -/
  rtw : cfg.rtw = resultWidth cfg.bits
  /-- R35. -/
  initeff : cfg.initeff = initialRegister cfg.refin cfg.init cfg.bits

/-- What holds in state R. -/
structure Ready.Inv (r : Ready) : Prop where
  legal : r.cfg.Legal
  /-- The tables are the built ones (R40; spec/20_memory.md R64). -/
  tables : r.tables = buildTables r.cfg
  /-- R30. -/
  check : r.check = crcOf r.cfg Config.checkString
  /-- R42. -/
  reg : Fits r.reg r.cfg.bits
  /-- R44. -/
  fresh : r.phase = .fresh → r.reg = r.cfg.initeff

/-- The invariant of a block; in U and E no element is there to constrain (R23). -/
def Block.Inv : Block → Prop
  | .unconfigured => True
  | .ready r => r.Inv
  | .configError _ => True

/-- The invariant of the machine. -/
def State.Inv (s : State) : Prop := s.block.Inv

/-- The states of the runs of R274: a program of events from reset, some steps on; of a block that hard-wires a configuration, from its launch
state (R263). -/
inductive Reachable : State → Prop where
  | start (program : List HostEvent) (h : Option Parameters) : Reachable (loadProgram program (launchState h))
  | next {s t : State} : Reachable s → step s = .next t → Reachable t

/-- A program without a reset. -/
def NoReset (events : List HostEvent) : Prop := HostEvent.reset ∉ events

/-! ### What claims about whole commands name -/

/-- The bits a command adds to the message, in fold order (spec/20_memory.md R51, R52, R56); none but for UPDATE and UPDATE_BITS. -/
def messageBits (refin : Bool) : Instr → List Bool
  | .configure _ _ _ _ _ _ _ _ _ => []
  | .getEngine => []
  | .update b => dataBits refin (wordOfByte b) 8
  | .updateBits v n => dataBits refin v n
  | .finalize => []
  | .read _ => []
  | .bitsRev _ _ => []

end Sys2Proof.Machine

namespace Sys2Proof

/-- The commands that fold data into the register. -/
def Instr.isUpdate : Instr → Bool
  | .update _ => true
  | .updateBits _ _ => true
  | .configure _ _ _ _ _ _ _ _ _ => false
  | .getEngine => false
  | .finalize => false
  | .read _ => false
  | .bitsRev _ _ => false

/-- The commands that execute in state R only (spec/60_exceptions.md R237, R239). -/
def Instr.needsReady : Instr → Bool
  | .getEngine => true
  | .update _ => true
  | .updateBits _ _ => true
  | .finalize => true
  | .read _ => true
  | .configure _ _ _ _ _ _ _ _ _ => false
  | .bitsRev _ _ => false

end Sys2Proof

namespace Sys2Proof.Machine

/-- The command is accepted in state R only: outside it the command is answered ERR_STATE, 0 or ERR_CONFIG, CAUSE, and nothing changes
(spec/60_exceptions.md R236, R237). -/
def RefusedUnlessReady (i : Instr) : Prop :=
  ∀ s : State,
    (s.block = .unconfigured → exec i s = .next { s with responses := s.responses ++ [{ status := .errState, data := 0 }] }) ∧
    (∀ cause, s.block = .configError cause →
      exec i s = .next { s with responses := s.responses ++ [{ status := .errConfig, data := cause.code }] })

/-- The configuration of the worked examples of spec/44_engine_operations.md. -/
def exampleCfg : Cfg := makeCfg true true .s256 32 0x04C11DB7 0xFFFFFFFF 0xFFFFFFFF

end Sys2Proof.Machine
end

