-- ==== Sys2Proof/Certificates/Slice0/Obligations.lean ====
section
/-! DEFINITION. The statements about the model, for the provers. Each docstring names the rule of spec/ it formalises; a statement that
gives the whole next state of a command also says what the command leaves alone. Responses are the spec's (spec/00_scope.md R16); that the
responses given are recorded in `State.responses`, in order, is how this model holds a run's response sequence (R274; log 1). -/

open Sys2Proof Sys2Proof.Machine

/-! ### Reset, the command port and the gate -/

/-- R48: after reset BSTATE is U and no other element has a value. -/
def Obligations.ResetLeavesOnlyBstate : Prop :=
  State.reset.block.bstate = 0 ∧ State.reset.block.cause? = none ∧ State.reset.block.ready? = none

/-- R260, R263: reset sets BSTATE to U and every other element loses its value, it changes nothing in U, and no other event leaves R or E; on a block
that hard-wires a configuration it ends in R or E, as after an implicit CONFIGURE. THE MODEL'S, not the spec's: that events wait in `stream` and that a
reset leaves it and the earlier `responses` (log 1); that the hard-wired configuration is the field `hardwired`, that its implicit CONFIGURE runs at
every later reset, and that it is not answered (log 10). -/
def Obligations.ResetIsTheOnlyWayOut : Prop :=
  (∀ (s : State) (es : List HostEvent), s.stream = .reset :: es →
    step s = .next { s with block := launchBlock s.hardwired, stream := es } ∧
    (s.hardwired = none → step s = .next { s with block := .unconfigured, stream := es })) ∧
  (∀ (s t : State) (es : List HostEvent), s.stream = .reset :: es → s.hardwired = none → s.block = .unconfigured → step s = .next t →
    t.block = s.block) ∧
  (∀ (s t : State) (f : Frame) (es : List HostEvent), s.stream = .frame f :: es → s.block.bstate ≠ 0 →
    step s = .next t → t.block.bstate = s.block.bstate)

/-- R70, R79, R239, log 2: of a frame of zero length nothing happens in the block, and like every frame it gets one response, that of a frame of a
wrong length. -/
def Obligations.EmptyFrameIsIllegal : Prop :=
  ∀ (s : State) (f : Frame) (es : List HostEvent), s.stream = .frame f :: es → f.len = 0 →
    step s = .next { s with stream := es, responses := s.responses ++ [{ status := .errIllegal, data := 0 }] }

/-- R185: when the frame presented next decodes to a command, the step is that command's meaning, on the state with the frame delivered.
(That the frame is taken from the model's own field `stream` is log 1.) -/
def Obligations.StepRunsTheDecodedCommand : Prop :=
  ∀ (s : State) (f : Frame) (es : List HostEvent) (i : Instr), s.stream = .frame f :: es → decode f = .ok i →
    step s = exec i { s with stream := es }

/-- R239, R70, R273: every step goes on; it delivers the next event, and it answers every frame exactly once and anything else not at all. Which
configuration is hard-wired is never written. (The field `stream` and what a step does with no event are log 1, the field `hardwired` log 10.) -/
def Obligations.EveryFrameIsAnsweredOnce : Prop :=
  ∀ s : State, ∃ t : State, step s = .next t ∧ t.stream = s.stream.tail ∧ t.hardwired = s.hardwired ∧
    match s.stream with
    | [] => t = s
    | .reset :: _ => t.responses = s.responses
    | .frame _ :: _ => ∃ r : Response, t.responses = s.responses ++ [r]

/-- R237: in U the five commands that need a configuration, and in R CONFIGURE, are answered ERR_STATE, 0, and no state changes. -/
def Obligations.WrongStateIsRefused : Prop :=
  (∀ (s : State) (i : Instr), s.block = .unconfigured → i.needsReady = true →
    exec i s = .next { s with responses := s.responses ++ [{ status := .errState, data := 0 }] }) ∧
  (∀ (s : State) (r : Ready) (refin refout cp : Bool) (shape : Shape) (bits : Nat) (poly init xorout check : Word),
    s.block = .ready r →
    exec (.configure refin refout cp shape bits poly init xorout check) s =
      .next { s with responses := s.responses ++ [{ status := .errState, data := 0 }] })

/-- R236: in E every legal command but BITS_REV is answered ERR_CONFIG with CAUSE, and no state changes. -/
def Obligations.ErrorStateRefusesEveryOtherCommand : Prop :=
  ∀ (s : State) (cause : Cause) (i : Instr), s.block = .configError cause → (∀ v n, i ≠ .bitsRev v n) →
    exec i s = .next { s with responses := s.responses ++ [{ status := .errConfig, data := cause.code }] }

/-- R239, with R84's data: the status and data each command is answered with, in each block state; the block it leaves, by the command's own rule
(CONFIGURE R186 with R231, R233, R234; GET_ENGINE R190, UPDATE R192, UPDATE_BITS R195, FINALIZE R199, READ R205, BITS_REV R106; the refusals R236,
R237); and the illegal frames (R238). The fields `stream` and `hardwired`, which no command writes, are the model's (log 1, log 10).
UPDATE and UPDATE_BITS run on the stored tables, so what they write is said of a state with the invariant. -/
def Obligations.OutcomeOfEveryCommandInEveryState : Prop :=
  (∀ (s : State) (i : Instr), ∃ (t : State) (status : Status) (data : Word),
    exec i s = .next t ∧ t.responses = s.responses ++ [{ status, data }] ∧ t.stream = s.stream ∧ t.hardwired = s.hardwired ∧
    match i, s.block with
    | .bitsRev v n, _ => status = .ok ∧ data = bitsRev v n ∧ t.block = s.block
    | _, .configError cause => status = .errConfig ∧ data = cause.code ∧ t.block = s.block
    | .configure refin refout cp shape bits poly init xorout check, .unconfigured =>
      let cfg := makeCfg refin refout shape bits poly init xorout
      (¬(1 ≤ bits ∧ bits ≤ 64) → status = .errConfig ∧ data = 1 ∧ t.block = .configError .cfgBits) ∧
      (1 ≤ bits → bits ≤ 64 → cp = true → check ≠ crcOf cfg Config.checkString →
        status = .errConfig ∧ data = 2 ∧ t.block = .configError .cfgCheck) ∧
      (1 ≤ bits → bits ≤ 64 → (cp = true → check = crcOf cfg Config.checkString) → status = .ok ∧ data = 0 ∧
        t.block = .ready { cfg, tables := buildTables cfg, check := crcOf cfg Config.checkString, reg := cfg.initeff, phase := .fresh })
    | .configure _ _ _ _ _ _ _ _ _, .ready _ => status = .errState ∧ data = 0 ∧ t.block = s.block
    | _, .unconfigured => status = .errState ∧ data = 0 ∧ t.block = s.block
    | .getEngine, .ready r => status = .ok ∧ data = 0 ∧ t.block = .ready { r with reg := r.cfg.initeff, phase := .fresh }
    | .update b, .ready r => status = .ok ∧ data = 0 ∧ t.block.bstate = 1 ∧
      (s.Inv → t.block = .ready { r with reg := foldByte r.cfg r.reg b, phase := .accumulating })
    | .updateBits v n, .ready r => status = .ok ∧ data = 0 ∧ t.block.bstate = 1 ∧
      (s.Inv → n ≤ 64 → t.block = .ready { r with reg := foldBits r.cfg r.reg v n, phase := .accumulating })
    | .finalize, .ready r => status = .ok ∧ data = final r.cfg r.reg ∧
      t.block = .ready { r with reg := r.cfg.initeff, phase := .fresh }
    | .read sel, .ready r => status = .ok ∧ data = readValue r sel ∧ t.block = s.block) ∧
  (∀ (s : State) (f : Frame) (es : List HostEvent) (e : Illegal), s.stream = .frame f :: es → decode f = .error e →
    step s = .next { s with stream := es, responses := s.responses ++ [{ status := .errIllegal, data := 0 }] })

/-- R235: without a reset, no run of frames leaves state E or changes CAUSE, and none is answered with a CRC (only BITS_REV is answered OK). (The field
`stream` is log 1.) -/
def Obligations.ErrorStateIsAbsorbing : Prop :=
  ∀ (k : Nat) (s : State) (cause : Cause), s.block = .configError cause → NoReset s.stream →
    ∃ t : State, Sys2Proof.core.run k s = .next t ∧ t.block = .configError cause ∧
      ∃ new : List Response, t.responses = s.responses ++ new ∧
        ∀ r ∈ new, r = { status := .errConfig, data := cause.code } ∨ r = { status := .errIllegal, data := 0 } ∨
          (r.status = .ok ∧ ∃ v n, HostEvent.frame (encode (.bitsRev v n)) ∈ s.stream ∧ r.data = bitsRev v n)

/-- R24, R21: configuration, derived registers, CHECK and tables never change after CONFIGURE, whatever frames follow. (The field
`stream` is log 1.) -/
def Obligations.ConfigurationNeverChanges : Prop :=
  ∀ (k : Nat) (s : State) (r : Ready), s.block = .ready r → NoReset s.stream →
    ∃ (t : State) (r' : Ready), Sys2Proof.core.run k s = .next t ∧ t.block = .ready r' ∧
      r'.cfg = r.cfg ∧ r'.tables = r.tables ∧ r'.check = r.check

/-- R21, R263: BSTATE is 0, 1 or 2; reset sets 0 (1 or 2 on a block that hard-wires a configuration); CONFIGURE in 0 sets 1 or 2; nothing else
writes it. (The field `stream` is log 1; the field `hardwired`, and that every later reset of such a block ends so, log 10.) -/
def Obligations.BstateTransitions : Prop :=
  ∀ s t : State, step s = .next t →
    t.block.bstate ≠ 3 ∧
    (t.block.bstate = s.block.bstate ∨
      (∃ es, s.stream = .reset :: es ∧ (t.block.bstate = 0 ↔ s.hardwired = none)) ∨
      (∃ f es refin refout cp shape bits poly init xorout check,
        s.stream = .frame f :: es ∧ decode f = .ok (.configure refin refout cp shape bits poly init xorout check) ∧
        s.block.bstate = 0 ∧ (t.block.bstate = 1 ∨ t.block.bstate = 2)))

/-- R273: what a step does to the block and what it answers depend on the block, its wiring and the events alone, not on the earlier answers.
(The fields `stream` and `responses` are log 1, `hardwired` log 10.) -/
def Obligations.AnswersDependOnBlockAndFramesOnly : Prop :=
  ∀ (k : Nat) (s₁ s₂ : State), s₁.block = s₂.block → s₁.hardwired = s₂.hardwired → s₁.stream = s₂.stream →
    ∃ (t₁ t₂ : State) (new : List Response), Sys2Proof.core.run k s₁ = .next t₁ ∧ Sys2Proof.core.run k s₂ = .next t₂ ∧
      t₁.block = t₂.block ∧ t₁.stream = t₂.stream ∧
      t₁.responses = s₁.responses ++ new ∧ t₂.responses = s₂.responses ++ new

/-! ### The invariant -/

/-- R48 with R23: the invariant holds after reset. -/
def Obligations.InvariantHoldsAtReset : Prop := State.reset.Inv

/-- R25, R28 to R35, R40, R42, R44, R118: every step keeps the invariant of Safety.lean, from every state that has it. (A reset of a block that
hard-wires a configuration is as log 10 has it.) -/
def Obligations.EveryStepKeepsInvariant : Prop :=
  ∀ s t : State, s.Inv → step s = .next t → t.Inv

/-- R274: so it holds of every state a run reaches, from State.reset or from the launch state of a block that hard-wires a configuration (R263). (A run
as steps over the field `stream` is log 1; the launch state and later resets of such a block are log 10.) -/
def Obligations.ReachableStatesHaveInvariant : Prop := ∀ s : State, Reachable s → s.Inv

/-! ### Encoding -/

/-- R81: decoding an encoded command gives it back, for every command whose fields are in range; the frame has its format's length; each field
of CONFIGURE's frame stands where R76 and R77 put it, and the reserved bits are 0; the worked encodings of the rule. -/
def Obligations.DecodeOfEncode : Prop :=
  (∀ i : Instr, i.wf = true → decode (encode i) = .ok i ∧ (encode i).len = i.opcode.frameBits) ∧
  (∀ refin refout cp shape bits poly init xorout check,
    ∃ ctl : Byte, encode (.configure refin refout cp shape bits poly init xorout check) =
        .whole (0x01 :: ctl :: .ofNat 8 bits :: (bytesOfWord poly ++ bytesOfWord init ++ bytesOfWord xorout ++ bytesOfWord check)) ∧
      ctl.getLsbD 0 = refin ∧ ctl.getLsbD 1 = refout ∧ ctl.getLsbD 2 = cp ∧
      ctl.extractLsb 4 3 = (match shape with | .s256 => 0#2 | .s2x16 => 1#2 | .s16 => 2#2) ∧ ctl.extractLsb 7 5 = 0) ∧
  encode .getEngine = .whole [0x02] ∧ encode .finalize = .whole [0x05] ∧ encode (.update 0x31) = .whole [0x03, 0x31] ∧
  encode (.read .poly) = .whole [0x06, 0x01] ∧
  encode (.updateBits 0x1ABC 13) = .whole [0x04, 0x0D, 0x00, 0x00, 0x00, 0x00, 0x00, 0x00, 0x1A, 0xBC] ∧
  encode (.bitsRev 0x1 64) = .whole [0x07, 0x40, 0x00, 0x00, 0x00, 0x00, 0x00, 0x00, 0x00, 0x01]

/-- R80: a legal frame carries a well-formed command and is its encoding, so no two legal frames decode to one command. -/
def Obligations.EncodeOfDecode : Prop :=
  ∀ (f : Frame) (i : Instr), decode f = .ok i → i.wf = true ∧ encode i = f

/-- R79, R238: when a frame is illegal and by which condition, the earlier condition deciding; and it is then answered ERR_ILLEGAL, 0, in every block
state, without a change.
BITSF makes no frame illegal. -/
def Obligations.IllegalFrameConditions : Prop :=
  (∀ f : Frame, decode f = .error .length ↔ f.len ≠ 8 ∧ f.len ≠ 16 ∧ f.len ≠ 80 ∧ f.len ≠ 280) ∧
  (∀ (op : Byte) (rest : List Byte),
    let f := Frame.whole (op :: rest)
    let legal := f.len = 8 ∨ f.len = 16 ∨ f.len = 80 ∨ f.len = 280
    (decode f = .error .opcode ↔ legal ∧ (op.toNat = 0 ∨ 8 ≤ op.toNat)) ∧
    (decode f = .error .lengthForOpcode ↔ legal ∧ ∃ o, Opcode.ofCode op = some o ∧ f.len ≠ o.frameBits) ∧
    (decode f = .error .count ↔ (op = 0x04 ∨ op = 0x07) ∧ f.len = 80 ∧ ∃ n v, rest = n :: v ∧ 64 < n.toNat) ∧
    (decode f = .error .selector ↔ op = 0x06 ∧ f.len = 16 ∧ ∃ sel, rest = [sel] ∧ 0x0C < sel.toNat) ∧
    (decode f = .error .control ↔ op = 0x01 ∧ f.len = 280 ∧
      ∃ ctl more, rest = ctl :: more ∧ (ctl.extractLsb 7 5 ≠ 0 ∨ ctl.extractLsb 4 3 = 3))) ∧
  (∀ (s : State) (f : Frame) (es : List HostEvent) (e : Illegal), s.stream = .frame f :: es → decode f = .error e →
    step s = .next { s with stream := es, responses := s.responses ++ [{ status := .errIllegal, data := 0 }] })

/-- Words written out from R73 to R77 decode to the commands they stand for (spec/96_test_vectors_derived.md section 2.9; the last frame, whose
reflections differ, is step 1 of program P6 of spec/95_test_vectors.md). -/
def Obligations.FramesOfTheSpecDecode : Prop :=
  decode (.whole [0x02]) = .ok .getEngine ∧ decode (.whole [0x05]) = .ok .finalize ∧
  decode (.whole [0x03, 0xFF]) = .ok (.update 0xFF) ∧ decode (.whole [0x06, 0x0C]) = .ok (.read .phase) ∧
  decode (.whole [0x04, 0x40, 0xFF, 0xFF, 0xFF, 0xFF, 0xFF, 0xFF, 0xFF, 0xFF]) = .ok (.updateBits 0xFFFFFFFFFFFFFFFF 64) ∧
  decode (.whole [0x07, 0x04, 0xFF, 0xFF, 0xFF, 0xFF, 0xFF, 0xFF, 0xFF, 0xF6]) = .ok (.bitsRev 0xFFFFFFFFFFFFFFF6 4) ∧
  decode (.whole [0x01, 0x17, 0x05, 0, 0, 0, 0, 0, 0, 0, 0x05, 0, 0, 0, 0, 0, 0, 0, 0x1F, 0, 0, 0, 0, 0, 0, 0, 0x1F,
    0, 0, 0, 0, 0, 0, 0, 0x19]) = .ok (.configure true true true .s16 5 0x05 0x1F 0x1F 0x19) ∧
  decode (.whole [0x01, 0x06, 0x0C, 0, 0, 0, 0, 0, 0, 0x08, 0x0F, 0, 0, 0, 0, 0, 0, 0, 0, 0, 0, 0, 0, 0, 0, 0, 0,
    0, 0, 0, 0, 0, 0, 0x0D, 0xAF]) = .ok (.configure false true true .s256 12 0x80F 0 0 0xDAF)

/-- R84, R85: a response is nine bytes, the status code first and then the data word, big-endian; the four codes, and no other is produced. -/
def Obligations.ResponseLayout : Prop :=
  (∀ r : Response, r.frame.len = 72 ∧ ∃ data : List Byte, r.frame = .whole (r.status.code :: data) ∧ data.length = 8 ∧
    ∀ j (h : j < data.length), data[j].toNat = r.data.toNat / 256 ^ (7 - j) % 256) ∧
  Status.code .ok = 0x00 ∧ Status.code .errConfig = 0x01 ∧ Status.code .errState = 0x02 ∧ Status.code .errIllegal = 0x03 ∧
  (∀ status : Status, (Status.code status).toNat < 4)

/-- R83, R82, R17: the expansions of the four pseudo-operations, UPDATE_STR's bytes being the characters' codes for an ASCII text; and what CONFIGURE's optional operands assemble, in the command's fields and in the
frame's: an omitted check gives CP = 0 and CHECKF = 0, a given one CP = 1, an omitted shape SHP = 0, and 256, 32, 16 give SHP = 0, 1, 2; refin is
RI and refout is RO (R77).
(For a text with a character outside ASCII, of which the spec does not speak, the second clause rests on the model's choice, log 9.) -/
def Obligations.PseudoOperationExpansions : Prop :=
  (∀ bs : List Byte, assemble (.updateBytes bs) = bs.map Instr.update) ∧
  (∀ text : List Char, assemble (.updateStr text) = assemble (.updateBytes (asciiBytes text))) ∧
  (∀ (text : List Char) (bs : List Byte), (∀ c ∈ text, c.toNat < 0x80) → bs.map BitVec.toNat = text.map Char.toNat →
    assemble (.updateStr text) = bs.map Instr.update) ∧
  (∀ bs : List Byte, assemble (.calcBytes bs) = [Instr.getEngine] ++ bs.map Instr.update ++ [Instr.finalize]) ∧
  (∀ v n, assemble (.calcBits v n) = [.getEngine, .updateBits v n, .finalize]) ∧
  (∀ (bits : Nat) (poly : Word) (refin refout : Bool) (init xorout c : Word) (shape : Shape),
    assemble (.configure bits poly refin refout init xorout none none) =
      [.configure refin refout false .s256 bits poly init xorout 0] ∧
    assemble (.configure bits poly refin refout init xorout none (some shape)) =
      [.configure refin refout false shape bits poly init xorout 0] ∧
    assemble (.configure bits poly refin refout init xorout (some c) none) =
      [.configure refin refout true .s256 bits poly init xorout c] ∧
    assemble (.configure bits poly refin refout init xorout (some c) (some shape)) =
      [.configure refin refout true shape bits poly init xorout c]) ∧
  (∀ (refin refout cp : Bool) (shape : Shape) (bits : Nat) (poly init xorout check : Word),
    ∃ ctl, encode (.configure refin refout cp shape bits poly init xorout check) =
        .whole (0x01 :: ctl :: .ofNat 8 bits :: (bytesOfWord poly ++ bytesOfWord init ++ bytesOfWord xorout ++ bytesOfWord check)) ∧
      ctl.getLsbD 0 = refin ∧ ctl.getLsbD 1 = refout ∧ ctl.getLsbD 2 = cp ∧
      ctl.extractLsb 4 3 = (match shape with | .s256 => 0#2 | .s2x16 => 1#2 | .s16 => 2#2))

/-! ### Bit reversal -/

/-- R100: the result bit by bit, and as a sum. -/
def Obligations.BitsRevReversesTheLowBits : Prop :=
  ∀ (value : Word) (n : Nat), n ≤ 64 →
    (∀ j, j < n → (bitsRev value n).getLsbD j = value.getLsbD (n - 1 - j)) ∧
    (∀ j, n ≤ j → (bitsRev value n).getLsbD j = false) ∧
    (bitsRev value n).toNat = ((List.range n).map fun j => (value.getLsbD j).toNat * 2 ^ (n - 1 - j)).sum

/-- R101: bits at n and above do not count, and the result is below 2^n. -/
def Obligations.BitsRevIgnoresHighBits : Prop :=
  ∀ (value : Word) (n : Nat), n ≤ 64 → bitsRev value n = bitsRev (value &&& lowMask n) n ∧ Fits (bitsRev value n) n

/-- R104: the nibble algorithm computes the reversal. -/
def Obligations.NibbleReversalIsReversal : Prop :=
  ∀ (value : Word) (n : Nat), n ≤ 64 → bitsRevNibble value n = bitsRev value n

/-- R105: the six laws of reversal. -/
def Obligations.BitsRevLaws : Prop :=
  ∀ (a b : Word) (n : Nat), n ≤ 64 → Fits a n → Fits b n →
    bitsRev (bitsRev a n) n = a ∧
    bitsRev (a ^^^ b) n = bitsRev a n ^^^ bitsRev b n ∧
    (n = 1 → bitsRev a 1 = a) ∧
    bitsRev ((a <<< 1) &&& lowMask n) n = bitsRev a n >>> 1 ∧
    (1 ≤ n → (bitsRev a n).getLsbD 0 = a.getLsbD (n - 1)) ∧
    (bitsRev a n = bitsRev b n → a = b) ∧ (∃ c, Fits c n ∧ bitsRev c n = a) ∧
    bitsRev 0 n = 0 ∧ bitsRev (lowMask n) n = lowMask n

/-- R106: BITS_REV is answered OK with the reversed value in every block state and touches none; its frame and corner cases; N > 64 makes the
frame illegal, answered ERR_ILLEGAL in every block state. -/
def Obligations.BitsRevCommand : Prop :=
  (∀ (s : State) (v : Word) (n : Nat), n ≤ 64 →
    exec (.bitsRev v n) s = .next { s with responses := s.responses ++ [{ status := .ok, data := bitsRev v n }] }) ∧
  (∀ (v : Word) (n : Nat), n ≤ 64 → encode (.bitsRev v n) = .whole (0x07 :: BitVec.ofNat 8 n :: bytesOfWord v)) ∧
  (∀ v : Word, bitsRev v 0 = 0 ∧ bitsRev v 1 = v &&& 1 ∧ ∀ j, j < 64 → (bitsRev v 64).getLsbD j = v.getLsbD (63 - j)) ∧
  (∀ (v : Word) (n : Nat), n ≤ 64 → bitsRev v n = bitsRev (v &&& lowMask n) n) ∧
  bitsRev 0xFFFFFFFFFFFFFFF6 4 = 6 ∧ bitsRev 0x04C11DB7 32 = 0xEDB88320 ∧
  (∀ (s : State) (es : List HostEvent) (n : Byte) (v : Word), 64 < n.toNat →
    s.stream = .frame (.whole (0x07 :: n :: bytesOfWord v)) :: es →
    step s = .next { s with stream := es, responses := s.responses ++ [{ status := .errIllegal, data := 0 }] })

/-! ### The slow recurrence -/

/-- R118: a step keeps the width; so does every command; the one-bit register, whose polynomial is its own reversal. -/
def Obligations.StepKeepsTheWidth : Prop :=
  (∀ (cfg : Cfg) (c : Word) (d : Bool), cfg.Legal → Fits c cfg.bits → Fits (stepBit cfg c d) cfg.bits) ∧
  (∀ (s t : State) (i : Instr) (r : Ready), s.Inv → exec i s = .next t → t.block = .ready r → Fits r.reg r.cfg.bits) ∧
  (∀ (cfg : Cfg) (c : Word) (d : Bool), cfg.Legal → cfg.bits = 1 → Fits c 1 →
    stepR cfg c d = (if c.getLsbD 0 ^^ d then cfg.polyrev else 0) ∧
    stepD cfg c d = (if c.getLsbD 0 ^^ d then cfg.poly else 0) ∧
    cfg.polyrev = cfg.poly ∧ (cfg.poly = 0 ∨ cfg.poly = 1))

/-- R119: the reflected step is the direct step on the reversed register, and so for every sequence of bits. -/
def Obligations.MirrorLaw : Prop :=
  ∀ (cfg : Cfg) (c : Word), cfg.Legal → Fits c cfg.bits →
    (∀ d, stepR cfg (bitsRev c cfg.bits) d = bitsRev (stepD cfg c d) cfg.bits) ∧
    (∀ ds : List Bool, ds.foldl (stepR cfg) (bitsRev c cfg.bits) = bitsRev (ds.foldl (stepD cfg) c) cfg.bits)

/-- R123: `calc_byte` is the bit-serial fold, under the operand conditions of R120 to R122. -/
def Obligations.CalcByteIsBitSerial : Prop :=
  ∀ (cfg : Cfg) (c : Word) (inp : Byte) (n : Nat), cfg.Legal → Fits c cfg.bits → 1 ≤ n → n ≤ 8 →
    (cfg.refin = true → calcByte cfg c inp n = calcByteR cfg c inp n) ∧
    (cfg.refin = false → calcByte cfg c inp n = calcByteD cfg c inp n) ∧
    (cfg.refin = true → inp.toNat < 2 ^ n →
      calcByte cfg c inp n = foldSeq cfg c ((List.range n).map fun i => inp.getLsbD i)) ∧
    (cfg.refin = false → inp.toNat % 2 ^ (8 - n) = 0 →
      calcByte cfg c inp n = foldSeq cfg c ((List.range n).map fun i => inp.getLsbD (7 - i)))

/-- R127: folding a concatenation, of bits, of bytes, and of a bit string cut in two in either mode. -/
def Obligations.FoldOfConcatenation : Prop :=
  ∀ (cfg : Cfg) (c : Word),
    (∀ s₁ s₂, foldSeq cfg c (s₁ ++ s₂) = foldSeq cfg (foldSeq cfg c s₁) s₂) ∧
    (∀ bs₁ bs₂, foldBytes cfg c (bs₁ ++ bs₂) = foldBytes cfg (foldBytes cfg c bs₁) bs₂) ∧
    (∀ (v : Word) (n₁ n₂ : Nat), cfg.refin = true →
      foldBits cfg c v (n₁ + n₂) = foldBits cfg (foldBits cfg c v n₁) (v >>> n₁) n₂) ∧
    (∀ (v : Word) (n₁ n₂ : Nat), cfg.refin = false →
      foldBits cfg c v (n₁ + n₂) = foldBits cfg (foldBits cfg c (v >>> n₂) n₁) v n₂)

/-- R128: a step is linear in register and data bit; so are sequences of equal length; the data part of a byte stands apart from the register part. -/
def Obligations.FoldIsLinear : Prop :=
  ∀ (cfg : Cfg) (c₁ c₂ : Word),
    (∀ d₁ d₂, stepBit cfg (c₁ ^^^ c₂) (d₁ ^^ d₂) = stepBit cfg c₁ d₁ ^^^ stepBit cfg c₂ d₂) ∧
    (∀ s₁ s₂ : List Bool, s₁.length = s₂.length →
      foldSeq cfg (c₁ ^^^ c₂) (List.zipWith (· ^^ ·) s₁ s₂) = foldSeq cfg c₁ s₁ ^^^ foldSeq cfg c₂ s₂) ∧
    (∀ b, foldByte cfg c₁ b = foldByte cfg c₁ 0 ^^^ foldByte cfg 0 b)

/-- R129: the register bits nearest the tested end join the data, the rest is shifted; the three cases. -/
def Obligations.SeparationOfRegisterAndData : Prop :=
  ∀ (cfg : Cfg) (c d : Word) (m : Nat), cfg.Legal → Fits c cfg.bits → m ≤ 64 → Fits d m →
    (cfg.refin = true →
      foldBits cfg c d m = (c >>> m) ^^^ foldBits cfg 0 ((c ^^^ d) &&& lowMask m) m) ∧
    (cfg.refin = false → m ≤ cfg.bits →
      foldBits cfg c d m =
        ((c <<< m) &&& cfg.mask) ^^^ foldBits cfg 0 (((c >>> (cfg.bits - m)) ^^^ d) &&& lowMask m) m) ∧
    (cfg.refin = false → cfg.bits < m →
      foldBits cfg c d m = foldBits cfg 0 ((c <<< (m - cfg.bits)) ^^^ d) m)

/-! ### Tables and the fast recurrence -/

/-- R142: every entry of the 256-entry table, and the facts that follow. -/
def Obligations.Table256Entries : Prop :=
  ∀ cfg : Cfg, cfg.Legal → cfg.shape = .s256 → ∃ t, buildTables cfg = .t256 t ∧
    (∀ b, lookup256 t b = calcByte cfg 0 b 8 <<< cfg.align) ∧
    lookup256 t 0 = 0 ∧ (∀ a b, lookup256 t (a ^^^ b) = lookup256 t a ^^^ lookup256 t b) ∧
    (cfg.refin = false → lookup256 t 1 = cfg.poly <<< cfg.align) ∧ (cfg.refin = true → lookup256 t 0x80 = cfg.polyrev)

/-- R144, R145: the entries of the 2x16 shape, their invariant for every byte, and their zero entries. -/
def Obligations.SplitTableEntries : Prop :=
  ∀ cfg : Cfg, cfg.Legal → cfg.shape = .s2x16 → ∃ lo hi, buildTables cfg = .t2x16 lo hi ∧
    (∀ i : Nibble, lookup16 lo i = calcByte cfg 0 (i.setWidth 8) 8 <<< cfg.align) ∧
    (∀ i : Nibble, lookup16 hi i = calcByte cfg 0 (i.setWidth 8 <<< 4) 8 <<< cfg.align) ∧
    (∀ b : Byte, lookup16 lo (loNibble b) ^^^ lookup16 hi (hiNibble b) = calcByte cfg 0 b 8 <<< cfg.align) ∧
    lookup16 lo 0 = 0 ∧ lookup16 hi 0 = 0

/-- R146: the entries of the 16-entry shape: the nibble folded from a zero register, aligned; THI's when reflected, TLO's when direct. -/
def Obligations.NibbleTableEntries : Prop :=
  ∀ cfg : Cfg, cfg.Legal → cfg.shape = .s16 → ∃ t, buildTables cfg = .t16 t ∧
    (∀ i : Nibble, lookup16 t i = foldBits cfg 0 (i.setWidth 64) 4 <<< cfg.align) ∧
    (∀ i : Nibble, cfg.refin = true → lookup16 t i = calcByteR cfg 0 (i.setWidth 8) 4 ∧
      lookup16 t i = calcByte cfg 0 (i.setWidth 8 <<< 4) 8 <<< cfg.align) ∧
    (∀ i : Nibble, cfg.refin = false → lookup16 t i = calcByteD cfg 0 (i.setWidth 8) 8 <<< cfg.align)

/-- R147: `lut8` is the byte's contribution under every shape, so it is one function under all three, and so is the fast byte sequence. -/
def Obligations.ShapesGiveOneLut8 : Prop :=
  (∀ (cfg : Cfg) (y : Byte), cfg.Legal → lut8 cfg (buildTables cfg) y = calcByte cfg 0 y 8 <<< cfg.align) ∧
  (∀ (cfg : Cfg) (sh₁ sh₂ : Shape) (y : Byte), cfg.Legal →
    lut8 { cfg with shape := sh₁ } (buildTables { cfg with shape := sh₁ }) y =
      lut8 { cfg with shape := sh₂ } (buildTables { cfg with shape := sh₂ }) y) ∧
  (∀ (cfg : Cfg) (sh₁ sh₂ : Shape) (bs : List Byte), cfg.Legal →
    tableCrcOf { cfg with shape := sh₁ } (buildTables { cfg with shape := sh₁ }) bs =
      tableCrcOf { cfg with shape := sh₂ } (buildTables { cfg with shape := sh₂ }) bs)

/-- R148: the range of every table entry, its zero low bits, and that it fits RTW bits; `lut8` of a shape reads entries and XORs of them. -/
def Obligations.TableEntriesAreInRange : Prop :=
  ∀ cfg : Cfg, cfg.Legal →
    let inRange := fun e : Word => (cfg.refin = true → Fits e cfg.bits) ∧
      (cfg.refin = false → Fits e cfg.workBits ∧ e.toNat % 2 ^ cfg.align = 0) ∧ Fits e cfg.rtw
    match buildTables cfg with
    | .t256 t => ∀ b, inRange (lookup256 t b)
    | .t2x16 lo hi => ∀ i, inRange (lookup16 lo i) ∧ inRange (lookup16 hi i)
    | .t16 t => ∀ i, inRange (lookup16 t i)

/-- R168: the nibble-at-a-time step of the 16-entry shape is the fast byte step. -/
def Obligations.NibbleStepIsFastByteStep : Prop :=
  ∀ (cfg : Cfg) (c : Word) (b : Byte) (t : Vector Word 16), cfg.Legal → Fits c cfg.bits → buildTables cfg = .t16 t →
    nibbleByte cfg t c b = fastByte cfg (.t16 t) c b

/-- R175, the core correctness property: the table-driven recurrence is the slow one, for every legal configuration and shape. -/
def Obligations.FastRecurrenceIsSlowRecurrence : Prop :=
  ∀ (cfg : Cfg) (c : Word), cfg.Legal → Fits c cfg.bits →
    let tables := buildTables cfg
    (∀ b, cfg.refin = true → fastByteR cfg tables c b = foldByte cfg c b) ∧
    (∀ b, cfg.refin = false → fastByteD cfg tables c b = foldByte cfg c b) ∧
    (∀ r d, 1 ≤ r → r ≤ 7 → Fits d r → cfg.refin = true → fastPartR cfg tables c d r = foldBits cfg c d r) ∧
    (∀ r d, 1 ≤ r → r ≤ 7 → Fits d r → cfg.refin = false → fastPartD cfg tables c d r = foldBits cfg c d r) ∧
    (∀ bs, fastFoldBytes cfg tables c bs = foldBytes cfg c bs) ∧
    (∀ v n, n ≤ 64 → fastFoldBits cfg tables c v n = foldBits cfg c v n)

/-- R31, R175: two ready blocks that differ in their table shape only answer every command alike, but READ TABLE_SHAPE, and stay so; and
CONFIGURE answers alike, and leaves the same BSTATE, whatever shape it names. -/
def Obligations.ShapeIsUnobservable : Prop :=
  (∀ (s : State) (sh₁ sh₂ : Shape) (refin refout cp : Bool) (bits : Nat) (poly init xorout check : Word),
    ∃ (t₁ t₂ : State), exec (.configure refin refout cp sh₁ bits poly init xorout check) s = .next t₁ ∧
      exec (.configure refin refout cp sh₂ bits poly init xorout check) s = .next t₂ ∧
      t₁.responses = t₂.responses ∧ t₁.block.bstate = t₂.block.bstate ∧ t₁.block.cause? = t₂.block.cause?) ∧
  (∀ (s₁ s₂ : State) (r₁ r₂ : Ready) (shape : Shape) (i : Instr), s₁.block = .ready r₁ → s₂.block = .ready r₂ → r₁.Inv → r₂.Inv →
    r₂.cfg = { r₁.cfg with shape } → r₂.reg = r₁.reg → r₂.phase = r₁.phase → i.wf = true → i ≠ .read .tableShape →
    ∃ (t₁ t₂ : State) (q₁ q₂ : Ready) (r : Response), exec i s₁ = .next t₁ ∧ exec i s₂ = .next t₂ ∧
      t₁.responses = s₁.responses ++ [r] ∧ t₂.responses = s₂.responses ++ [r] ∧
      t₁.block = .ready q₁ ∧ t₂.block = .ready q₂ ∧
      q₂.cfg = { q₁.cfg with shape } ∧ q₂.check = q₁.check ∧ q₂.reg = q₁.reg ∧ q₂.phase = q₁.phase)

/-! ### The commands -/

/-- R186, R49: CONFIGURE in U with a legal width, and a right check value if one is supplied, establishes everything; the next state whole. -/
def Obligations.ConfigureEstablishesReady : Prop :=
  ∀ (s : State) (refin refout cp : Bool) (shape : Shape) (bits : Nat) (poly init xorout check : Word),
    s.block = .unconfigured → 1 ≤ bits → bits ≤ 64 →
    let m := lowMask bits
    let cfg : Cfg :=
      { bits, poly := poly &&& m, refin, refout, init := init &&& m, xorout := xorout &&& m, shape, mask := m
        polyrev := bitsRev (poly &&& m) bits
        rtw := if bits ≤ 8 then 8 else if bits ≤ 16 then 16 else if bits ≤ 32 then 32 else 64
        initeff := if refin = true then bitsRev (init &&& m) bits else init &&& m }
    (cp = true → check = crcOf cfg Config.checkString) →
    exec (.configure refin refout cp shape bits poly init xorout check) s =
      .next
        { s with
          block := .ready { cfg, tables := buildTables cfg, check := crcOf cfg Config.checkString, reg := cfg.initeff, phase := .fresh }
          responses := s.responses ++ [{ status := .ok, data := 0 }] }

/-- R231, R233, R234: the two causes of the configuration error, the width first whatever the check, and its whole entry. -/
def Obligations.ConfigurationErrorEntry : Prop :=
  ∀ (s : State) (refin refout cp : Bool) (shape : Shape) (bits : Nat) (poly init xorout check : Word),
    s.block = .unconfigured →
    ((bits = 0 ∨ 64 < bits) →
      exec (.configure refin refout cp shape bits poly init xorout check) s =
        .next { s with block := .configError .cfgBits, responses := s.responses ++ [{ status := .errConfig, data := 1 }] }) ∧
    (1 ≤ bits → bits ≤ 64 → cp = true →
      check ≠ crcOf (makeCfg refin refout shape bits poly init xorout) Config.checkString →
      exec (.configure refin refout cp shape bits poly init xorout check) s =
        .next { s with block := .configError .cfgCheck, responses := s.responses ++ [{ status := .errConfig, data := 2 }] })

/-- R268: bits of `poly`, `init` and `xor_out` at the width and above, and bits of an UPDATE_BITS or BITS_REV value at `n` and above, are dropped
silently; an absent check is ignored, and a supplied one is compared whole. -/
def Obligations.OverwideOperandsAreDropped : Prop :=
  ∀ (s : State) (refin refout cp : Bool) (shape : Shape) (bits : Nat) (poly init xorout check other : Word),
    1 ≤ bits → bits ≤ 64 →
    exec (.configure refin refout cp shape bits poly init xorout check) s =
      exec (.configure refin refout cp shape bits (poly &&& lowMask bits) (init &&& lowMask bits) (xorout &&& lowMask bits) check) s ∧
    exec (.configure refin refout false shape bits poly init xorout check) s =
      exec (.configure refin refout false shape bits poly init xorout other) s ∧
    (s.block = .unconfigured → 2 ^ bits ≤ check.toNat →
      exec (.configure refin refout true shape bits poly init xorout check) s =
        .next { s with
          block := .configError .cfgCheck, responses := s.responses ++ [{ status := .errConfig, data := 2 }] }) ∧
    (∀ (v : Word) (n : Nat), n ≤ 64 →
      exec (.bitsRev v n) s = exec (.bitsRev (v &&& lowMask n) n) s ∧
      (s.Inv → exec (.updateBits v n) s = exec (.updateBits (v &&& lowMask n) n) s))

/-- R190: GET_ENGINE: its frame, where it is accepted, and that it makes the one engine Fresh; the next state whole. A Fresh engine stays as it is. -/
def Obligations.GetEngineMakesFresh : Prop :=
  encode .getEngine = .whole [0x02] ∧ RefusedUnlessReady .getEngine ∧
  ∀ (s : State) (r : Ready), s.block = .ready r →
    exec .getEngine s = .next { s with
      block := .ready { r with reg := r.cfg.initeff, phase := .fresh }
      responses := s.responses ++ [{ status := .ok, data := 0 }] } ∧
    (s.Inv → r.phase = .fresh → r = { r with reg := r.cfg.initeff, phase := .fresh }) ∧
    (r.cfg = exampleCfg → r.cfg.initeff = 0xFFFFFFFF)

/-- R192: UPDATE: its frame, where it is accepted, and that it folds all eight bits of its byte by the slow recurrence; the next state whole. -/
def Obligations.UpdateFoldsTheByte : Prop :=
  (∀ b : Byte, encode (.update b) = .whole [0x03, b] ∧ RefusedUnlessReady (.update b)) ∧
  (∀ (s : State) (r : Ready) (b : Byte), s.block = .ready r → s.Inv →
    exec (.update b) s = .next { s with
      block := .ready { r with reg := foldByte r.cfg r.reg b, phase := .accumulating }
      responses := s.responses ++ [{ status := .ok, data := 0 }] } ∧
    foldByte r.cfg r.reg b = foldSeq r.cfg r.reg (if r.cfg.refin = true then
      [b.getLsbD 0, b.getLsbD 1, b.getLsbD 2, b.getLsbD 3, b.getLsbD 4, b.getLsbD 5, b.getLsbD 6, b.getLsbD 7] else
      [b.getLsbD 7, b.getLsbD 6, b.getLsbD 5, b.getLsbD 4, b.getLsbD 3, b.getLsbD 2, b.getLsbD 1, b.getLsbD 0])) ∧
  foldByte exampleCfg 0xFFFFFFFF 0x31 = 0x7C231048

/-- R195: UPDATE_BITS: its frame, where it is accepted, and that it folds the low n bits, upward or downward by REFIN; the next state whole; n = 0 keeps
REG; bits at n and above do not count; n = 8 is UPDATE; n > 64 is an illegal frame. -/
def Obligations.UpdateBitsFoldsTheBits : Prop :=
  (∀ (v : Word) (n : Nat), n ≤ 64 →
    encode (.updateBits v n) = .whole (0x04 :: BitVec.ofNat 8 n :: bytesOfWord v) ∧ RefusedUnlessReady (.updateBits v n)) ∧
  (∀ (s : State) (r : Ready) (v : Word) (n : Nat), s.block = .ready r → s.Inv → n ≤ 64 →
    exec (.updateBits v n) s = .next { s with
      block := .ready { r with reg := foldBits r.cfg r.reg v n, phase := .accumulating }
      responses := s.responses ++ [{ status := .ok, data := 0 }] } ∧
    (r.cfg.refin = true → foldBits r.cfg r.reg v n = foldSeq r.cfg r.reg ((List.range n).map fun i => v.getLsbD i)) ∧
    (r.cfg.refin = false → foldBits r.cfg r.reg v n = foldSeq r.cfg r.reg ((List.range n).map fun i => v.getLsbD (n - 1 - i))) ∧
    foldBits r.cfg r.reg v 0 = r.reg ∧
    exec (.updateBits v n) s = exec (.updateBits (v &&& lowMask n) n) s ∧
    exec (.updateBits v 8) s = exec (.update (lowByte v)) s) ∧
  (∀ (n : Byte) (v : Word), 64 < n.toNat → decode (.whole (0x04 :: n :: bytesOfWord v)) = .error .count) ∧
  foldBits exampleCfg 0xFFFFFFFF 0x34333231 32 = 0x641C1F5C ∧
  foldBytes exampleCfg 0xFFFFFFFF [0x31, 0x32, 0x33, 0x34] = 0x641C1F5C

/-- R53: with n = 8k, UPDATE_BITS leaves the block as the k UPDATEs of its bytes do, the low byte first when reflected, the high one when direct. -/
def Obligations.UpdateBitsIsUpdatesOfItsBytes : Prop :=
  ∀ (s : State) (r : Ready) (v : Word) (k : Nat), s.block = .ready r → s.Inv → 1 ≤ k → k ≤ 8 →
    let bytes : List Byte := (List.range k).map fun j =>
      lowByte (v >>> (8 * (if r.cfg.refin = true then j else k - 1 - j)))
    ∃ t t' : State, exec (.updateBits v (8 * k)) s = .next t ∧ execAll (bytes.map .update) s = .next t' ∧ t.block = t'.block

/-- R199: FINALIZE: its frame, where it is accepted, and that it answers the output transform of REG, below 2^BITS, and makes the engine Fresh; the next
state whole. On a Fresh engine it answers the CRC of the empty message, and so does the second of two. -/
def Obligations.FinalizeAnswersAndResets : Prop :=
  encode .finalize = .whole [0x05] ∧ RefusedUnlessReady .finalize ∧
  (∀ (s : State) (r : Ready), s.block = .ready r →
    exec .finalize s = .next { s with
      block := .ready { r with reg := r.cfg.initeff, phase := .fresh }
      responses := s.responses ++ [{ status := .ok, data := final r.cfg r.reg }] } ∧
    (s.Inv → Fits (final r.cfg r.reg) r.cfg.bits) ∧
    (s.Inv → r.phase = .fresh → final r.cfg r.reg = crcOf r.cfg []) ∧
    execAll [.finalize, .finalize] s = .next { s with
      block := .ready { r with reg := r.cfg.initeff, phase := .fresh }
      responses := s.responses ++ [{ status := .ok, data := final r.cfg r.reg }, { status := .ok, data := crcOf r.cfg [] }] }) ∧
  crcOf exampleCfg Config.checkString = 0xCBF43926 ∧ crcOf exampleCfg [] = 0

/-- R205: READ: its frame, where it is accepted, and that it answers the value its selector names and writes no state; a selector above 0x0C is an
illegal frame. -/
def Obligations.ReadAnswersTheSelectedValue : Prop :=
  (∀ sel : Selector, encode (.read sel) = .whole [0x06, sel.code] ∧ RefusedUnlessReady (.read sel)) ∧
  (∀ b : Byte, 0x0C < b.toNat → decode (.whole [0x06, b]) = .error .selector) ∧
  [Selector.bits, .poly, .polyRev, .init, .xorOut, .checkValue, .reflectIn, .reflectOut, .mask, .resultWidth, .initEff, .tableShape, .phase].map
    Selector.code = [0x00, 0x01, 0x02, 0x03, 0x04, 0x05, 0x06, 0x07, 0x08, 0x09, 0x0A, 0x0B, 0x0C] ∧
  (∀ (s : State) (r : Ready), s.block = .ready r →
    let answers := fun (sel : Selector) (value : Word) =>
      exec (.read sel) s = .next { s with responses := s.responses ++ [{ status := .ok, data := value }] }
    answers .bits (BitVec.ofNat 64 r.cfg.bits) ∧ answers .poly r.cfg.poly ∧ answers .polyRev r.cfg.polyrev ∧
    answers .init r.cfg.init ∧ answers .xorOut r.cfg.xorout ∧ answers .checkValue r.check ∧
    answers .reflectIn (if r.cfg.refin = true then 1 else 0) ∧ answers .reflectOut (if r.cfg.refout = true then 1 else 0) ∧
    answers .mask r.cfg.mask ∧ answers .resultWidth (BitVec.ofNat 64 r.cfg.rtw) ∧ answers .initEff r.cfg.initeff ∧
    answers .tableShape (match r.cfg.shape with | .s256 => 0 | .s2x16 => 1 | .s16 => 2) ∧
    answers .phase (match r.phase with | .fresh => 0 | .accumulating => 1)) ∧
  exampleCfg.polyrev = 0xEDB88320 ∧ exampleCfg.rtw = 32

/-- R34: RTW is the smallest of 8, 16, 32, 64 that is at least the width. -/
def Obligations.ResultWidthIsTheSmallestContainer : Prop :=
  ∀ bits : Nat, 1 ≤ bits → bits ≤ 64 →
    resultWidth bits ∈ [8, 16, 32, 64] ∧ bits ≤ resultWidth bits ∧ ∀ w ∈ [8, 16, 32, 64], bits ≤ w → resultWidth bits ≤ w

/-- R198: the output transform reverses exactly when the two reflections differ, then XORs; the mask changes nothing. -/
def Obligations.OutputTransform : Prop :=
  ∀ (cfg : Cfg) (c : Word), cfg.Legal → Fits c cfg.bits →
    (cfg.refin = cfg.refout → final cfg c = c ^^^ cfg.xorout) ∧
    (cfg.refin ≠ cfg.refout → final cfg c = bitsRev c cfg.bits ^^^ cfg.xorout) ∧
    final cfg c = final cfg c &&& cfg.mask

/-- R200: the CRC of the empty message in the four cases. -/
def Obligations.CrcOfTheEmptyMessage : Prop :=
  ∀ cfg : Cfg, cfg.Legal →
    crcOf cfg [] = final cfg cfg.initeff ∧
    crcOf cfg [] = (if cfg.refin ≠ cfg.refout then bitsRev cfg.initeff cfg.bits else cfg.initeff) ^^^ cfg.xorout ∧
    (cfg.refout = true → crcOf cfg [] = bitsRev cfg.init cfg.bits ^^^ cfg.xorout) ∧
    (cfg.refout = false → crcOf cfg [] = cfg.init ^^^ cfg.xorout)

/-! ### Sequences of commands -/

/-- R215: what each command does to PHASE and REG in state R, whatever they were; everything else READ shows stays.
R246: no length is recorded: two non-empty runs of updates, of whatever lengths, that fold to one register leave one and the same block. -/
def Obligations.EngineStateMachine : Prop :=
  (∀ (s : State) (r : Ready) (i : Instr), s.block = .ready r → s.Inv → i.wf = true →
    ∃ (t : State) (r' : Ready), exec i s = .next t ∧ t.block = .ready r' ∧
      r'.cfg = r.cfg ∧ r'.tables = r.tables ∧ r'.check = r.check ∧
      match i with
      | .update b => r'.phase = .accumulating ∧ r'.reg = foldByte r.cfg r.reg b
      | .updateBits v n => r'.phase = .accumulating ∧ r'.reg = foldBits r.cfg r.reg v n
      | .finalize => r'.phase = .fresh ∧ r'.reg = r.cfg.initeff
      | .getEngine => r'.phase = .fresh ∧ r'.reg = r.cfg.initeff
      | .read _ => r'.phase = r.phase ∧ r'.reg = r.reg
      | .bitsRev _ _ => r'.phase = r.phase ∧ r'.reg = r.reg
      | .configure _ _ _ _ _ _ _ _ _ => r'.phase = r.phase ∧ r'.reg = r.reg) ∧
  (∀ (s : State) (r : Ready) (is₁ is₂ : List Instr), s.block = .ready r → s.Inv → is₁ ≠ [] → is₂ ≠ [] →
    (∀ i ∈ is₁ ++ is₂, i.isUpdate = true ∧ i.wf = true) →
    foldSeq r.cfg r.reg (is₁.map (messageBits r.cfg.refin)).flatten = foldSeq r.cfg r.reg (is₂.map (messageBits r.cfg.refin)).flatten →
    ∃ t₁ t₂ : State, execAll is₁ s = .next t₁ ∧ execAll is₂ s = .next t₂ ∧ t₁.block = t₂.block)

/-- R211: UPDATE_BYTES folds its bytes in order; PHASE becomes Accumulating unless there is no byte; UPDATE_STR of an
ASCII text is UPDATE_BYTES of its characters' codes. -/
def Obligations.UpdateBytesFoldsTheBytes : Prop :=
  (∀ (text : List Char) (bs : List Byte) (s : State), (∀ c ∈ text, c.toNat < 0x80) → bs.map BitVec.toNat = text.map Char.toNat →
    execAll (assemble (.updateStr text)) s = execAll (assemble (.updateBytes bs)) s) ∧
  ∀ (s : State) (r : Ready) (bs : List Byte), s.block = .ready r → s.Inv →
    execAll (assemble (.updateBytes bs)) s = .next { s with
      block := .ready { r with
        reg := foldBytes r.cfg r.reg bs
        phase := if bs = [] then r.phase else .accumulating }
      responses := s.responses ++ List.replicate bs.length { status := .ok, data := 0 } }

/-- R212: CALC answers the CRC of its bytes, discards whatever was accumulated and leaves the engine Fresh. -/
def Obligations.CalcAnswersTheCrc : Prop :=
  ∀ (s : State) (r : Ready) (bs : List Byte), s.block = .ready r → s.Inv →
    execAll (assemble (.calcBytes bs)) s = .next { s with
      block := .ready { r with reg := r.cfg.initeff, phase := .fresh }
      responses := s.responses ++ List.replicate (bs.length + 1) { status := .ok, data := 0 } ++
        [{ status := .ok, data := crcOf r.cfg bs }] }

/-- R213: CALC_BITS answers the CRC of its bit string, and leaves the engine Fresh; CALC_BITS v, 0 answers the CRC of the empty message. -/
def Obligations.CalcBitsAnswersTheCrc : Prop :=
  ∀ (s : State) (r : Ready) (v : Word) (n : Nat), s.block = .ready r → s.Inv → n ≤ 64 →
    execAll (assemble (.calcBits v n)) s = .next { s with
      block := .ready { r with reg := r.cfg.initeff, phase := .fresh }
      responses := s.responses ++
        [{ status := .ok, data := 0 }, { status := .ok, data := 0 }, { status := .ok, data := crcOfBits r.cfg v n }] } ∧
    crcOfBits r.cfg v 0 = crcOf r.cfg []

/-- R217: after FINALIZE, GET_ENGINE or a successful CONFIGURE, from whatever state, UPDATE_BYTES B; FINALIZE answers crc_of(B). -/
def Obligations.EngineReuseReproducesTheCrc : Prop :=
  ∀ (s t : State) (r : Ready) (i : Instr) (bs : List Byte), s.Inv → exec i s = .next t → t.block = .ready r →
    (i = .finalize ∨ i = .getEngine ∨ s.block = .unconfigured) →
    ∃ u : State, execAll (updateBytes bs ++ [.finalize]) t = .next u ∧
      u.lastResponse = some { status := .ok, data := crcOf r.cfg bs }

/-- R218: however a message is cut into UPDATE_BYTES pieces, and whatever mixture of UPDATE and UPDATE_BITS carries it, FINALIZE answers the CRC of the whole. -/
def Obligations.BlockSplitting : Prop :=
  ∀ (s : State) (r : Ready), s.block = .ready r → s.Inv → r.phase = .fresh →
    (∀ pieces : List (List Byte), ∃ u : State,
      execAll ((pieces.map updateBytes).flatten ++ [.finalize]) s = .next u ∧
      u.lastResponse = some { status := .ok, data := crcOf r.cfg pieces.flatten }) ∧
    (∀ is : List Instr, (∀ i ∈ is, i.isUpdate = true ∧ i.wf = true) → ∃ u : State,
      execAll (is ++ [.finalize]) s = .next u ∧
      u.lastResponse = some
        { status := .ok, data := final r.cfg (foldSeq r.cfg r.cfg.initeff (is.map (messageBits r.cfg.refin)).flatten) })

/-- R216: reflected input over the reversed bits gives the CRC of direct input over the bits; the raw registers are reversals of each other. -/
def Obligations.ReflectionSymmetry : Prop :=
  ∀ (a b : Cfg), a.Legal → b.Legal → a.refin = true → b.refin = false →
    a.bits = b.bits → a.poly = b.poly → a.refout = b.refout → a.init = b.init → a.xorout = b.xorout →
    ∀ (v : Word) (n : Nat), n ≤ 64 →
      crcOfBits a (bitsRev v n) n = crcOfBits b v n ∧
      ∀ c, Fits c a.bits → foldBits a (bitsRev c a.bits) (bitsRev v n) n = bitsRev (foldBits b c v n) a.bits

/-- R263: a block that hard-wires a configuration leaves reset in the state an implicit CONFIGURE leaves it in, R or E, which of them by R186, R231 and
R233; that is the block the CONFIGURE frame leaves after a reset of a block that hard-wires nothing. THE MODEL'S, not the spec's: that the launch state
has an empty `stream` and no `responses` and that a reset leaves both (log 1); that the configuration is a field of State, that the implicit
CONFIGURE runs at every later reset, and that it is not answered (log 10). -/
def Obligations.HardwiredConfiguration : Prop :=
  ∀ p : Parameters,
    let s := launchState (some p)
    (s.block.bstate = 1 ∨ s.block.bstate = 2) ∧ s.Inv ∧ s.stream = [] ∧ s.responses = [] ∧
    (s.block.bstate = 1 ↔ 1 ≤ p.bits ∧ p.bits ≤ 64 ∧ (p.checkPresent = true →
      p.check = crcOf (makeCfg p.refin p.refout p.shape p.bits p.poly p.init p.xorout) Config.checkString)) ∧
    (∀ (u : State) (es : List HostEvent), u.hardwired = some p → u.stream = .reset :: es →
      step u = .next { u with block := s.block, stream := es }) ∧
    (p.bits < 256 → ∃ t : State,
      step (presentFrame (encode (.configure p.refin p.refout p.checkPresent p.shape p.bits p.poly p.init p.xorout p.check)) State.reset) = .next t ∧
      t.block = s.block)
end

