-- ==== Sys2Proof/Laws/Bits.lean ====
section
/-! SUPPORT. Words bit by bit: low masks, values that fit a width, bit strings cut at an end, and the gated operand of the recurrences. -/

namespace Sys2Proof.Machine

/-! ### Masks -/

theorem lowMask_toNat {n : Nat} (h : n ≤ 64) : (lowMask n).toNat = 2 ^ n - 1 := by
  have : 2 ^ n ≤ 2 ^ 64 := Nat.pow_le_pow_right (by decide) h
  have : 0 < 2 ^ n := Nat.two_pow_pos n
  simp only [lowMask, BitVec.toNat_ofNat]
  exact Nat.mod_eq_of_lt (by omega)

theorem getLsbD_lowMask {n : Nat} (h : n ≤ 64) (i : Nat) : (lowMask n).getLsbD i = decide (i < n) := by
  rw [BitVec.getLsbD, lowMask_toNat h, Nat.testBit_two_pow_sub_one]

theorem lowMask_zero : lowMask 0 = 0 := by decide

/-! ### Values of a width -/

/-- Fitting `n` bits is having no bit at `n` or above. -/
theorem fits_iff {v : Word} {n : Nat} : Fits v n ↔ ∀ i, n ≤ i → v.getLsbD i = false := by
  constructor
  · intro h i hi
    exact Nat.testBit_lt_two_pow (Nat.lt_of_lt_of_le h (Nat.pow_le_pow_right (by decide) hi))
  · intro h
    exact Nat.lt_pow_two_of_testBit _ h

theorem Fits.bit {v : Word} {n i : Nat} (h : Fits v n) (hi : n ≤ i) : v.getLsbD i = false := fits_iff.1 h i hi

theorem fits_zero (n : Nat) : Fits 0 n := by simp [Fits]

theorem Fits.mono {v : Word} {n m : Nat} (h : Fits v n) (hm : n ≤ m) : Fits v m :=
  fits_iff.2 fun _ hi => h.bit (Nat.le_trans hm hi)

theorem fits_64 (v : Word) : Fits v 64 := v.isLt

theorem Fits.xor {v w : Word} {n : Nat} (hv : Fits v n) (hw : Fits w n) : Fits (v ^^^ w) n :=
  fits_iff.2 fun i hi => by simp [hv.bit hi, hw.bit hi]

theorem Fits.and {v : Word} {n : Nat} (hv : Fits v n) (w : Word) : Fits (v &&& w) n :=
  fits_iff.2 fun i hi => by simp [hv.bit hi]

theorem Fits.ushiftRight {v : Word} {n : Nat} (hv : Fits v n) (k : Nat) : Fits (v >>> k) (n - k) :=
  fits_iff.2 fun i hi => by simpa using hv.bit (by omega)

theorem fits_lowMask {n : Nat} (h : n ≤ 64) (v : Word) : Fits (v &&& lowMask n) n :=
  fits_iff.2 fun i hi => by simp [getLsbD_lowMask h]; omega

/-- A mask changes nothing in a value that fits. -/
theorem Fits.and_lowMask {v : Word} {n : Nat} (hv : Fits v n) (h : n ≤ 64) : v &&& lowMask n = v := by
  apply BitVec.eq_of_getLsbD_eq
  intro i _
  rw [BitVec.getLsbD_and, getLsbD_lowMask h]
  by_cases hi : i < n
  · simp [hi]
  · simp [hi, hv.bit (Nat.le_of_not_lt hi)]

/-! ### The gated operand -/

@[simp] theorem gated_true (v : Word) : gated true v = v := rfl
@[simp] theorem gated_false (v : Word) : gated false v = 0 := rfl

theorem gated_xor (a b : Bool) (v : Word) : gated (a ^^ b) v = gated a v ^^^ gated b v := by
  cases a <;> cases b <;> simp

theorem Fits.gated {v : Word} {n : Nat} (h : Fits v n) (t : Bool) : Fits (gated t v) n := by
  cases t
  · exact fits_zero n
  · exact h

theorem getLsbD_gated (t : Bool) (v : Word) (i : Nat) : (gated t v).getLsbD i = (t && v.getLsbD i) := by
  cases t <;> simp

/-! ### Data bits -/

@[simp] theorem bitsUp_length (v : Word) (n : Nat) : (bitsUp v n).length = n := by simp [bitsUp]
@[simp] theorem bitsDown_length (v : Word) (n : Nat) : (bitsDown v n).length = n := by simp [bitsDown]
@[simp] theorem bitsUp_zero (v : Word) : bitsUp v 0 = [] := rfl
@[simp] theorem bitsDown_zero (v : Word) : bitsDown v 0 = [] := rfl

/-- The first bit upward is bit 0; the rest are those of the value shifted down. -/
theorem bitsUp_succ (v : Word) (n : Nat) : bitsUp v (n + 1) = v.getLsbD 0 :: bitsUp (v >>> 1) n := by
  simp [bitsUp, List.range_succ_eq_map, Nat.add_comm]

/-- The first bit downward is the top one. -/
theorem bitsDown_succ (v : Word) (n : Nat) : bitsDown v (n + 1) = v.getLsbD n :: bitsDown v n := by
  simp only [bitsDown, List.range_succ_eq_map, List.map_cons, List.map_map, List.cons.injEq]
  refine ⟨by simp, List.map_congr_left fun i _ => ?_⟩
  simp only [Function.comp]
  congr 1
  omega

@[simp] theorem foldSeq_nil (cfg : Cfg) (c : Word) : foldSeq cfg c [] = c := rfl
@[simp] theorem foldSeq_cons (cfg : Cfg) (c : Word) (d : Bool) (ds : List Bool) :
    foldSeq cfg c (d :: ds) = foldSeq cfg (stepBit cfg c d) ds := rfl
@[simp] theorem foldBytes_nil (cfg : Cfg) (c : Word) : foldBytes cfg c [] = c := rfl
@[simp] theorem foldBytes_cons (cfg : Cfg) (c : Word) (b : Byte) (bs : List Byte) :
    foldBytes cfg c (b :: bs) = foldBytes cfg (foldByte cfg c b) bs := rfl
@[simp] theorem fastFoldBytes_nil (cfg : Cfg) (t : Tables) (c : Word) : fastFoldBytes cfg t c [] = c := rfl
@[simp] theorem fastFoldBytes_cons (cfg : Cfg) (t : Tables) (c : Word) (b : Byte) (bs : List Byte) :
    fastFoldBytes cfg t c (b :: bs) = fastFoldBytes cfg t (fastByte cfg t c b) bs := rfl

/-! ### One shift of the register is linear -/

theorem xor_and_distrib (x y m : Word) : (x ^^^ y) &&& m = (x &&& m) ^^^ (y &&& m) := by
  apply BitVec.eq_of_getLsbD_eq
  intro i _
  simp only [BitVec.getLsbD_and, BitVec.getLsbD_xor]
  cases x.getLsbD i <;> cases y.getLsbD i <;> cases m.getLsbD i <;> rfl

theorem shiftR_xor (cfg : Cfg) (x y : Word) : shiftR cfg (x ^^^ y) = shiftR cfg x ^^^ shiftR cfg y := by
  simp only [shiftR, BitVec.ushiftRight_xor_distrib, BitVec.getLsbD_xor, gated_xor]
  ac_rfl

theorem shiftD_xor (cfg : Cfg) (x y : Word) : shiftD cfg (x ^^^ y) = shiftD cfg x ^^^ shiftD cfg y := by
  simp only [shiftD, BitVec.shiftLeft_xor_distrib, xor_and_distrib, BitVec.getLsbD_xor, gated_xor]
  ac_rfl

theorem shiftD8_xor (p x y : Word) : shiftD8 p (x ^^^ y) = shiftD8 p x ^^^ shiftD8 p y := by
  simp only [shiftD8, BitVec.shiftLeft_xor_distrib, xor_and_distrib, BitVec.getLsbD_xor, gated_xor]
  ac_rfl

/-- Iterating a linear map is linear. -/
theorem iterate_xor {f : Word → Word} (hf : ∀ x y, f (x ^^^ y) = f x ^^^ f y) (n : Nat) (x y : Word) :
    f^[n] (x ^^^ y) = f^[n] x ^^^ f^[n] y := by
  induction n generalizing x y with
  | zero => rfl
  | succ n ih => simp only [Function.iterate_succ, Function.comp, hf, ih]

end Sys2Proof.Machine
end

