-- ==== Sys2Proof/Laws/Decode.lean ====
section
/-! SUPPORT. The pieces of an encoding read back: big-endian fields, codes, and the CTL byte, each in both directions. -/

namespace Sys2Proof

/-- A big-endian field written and read is itself. -/
theorem wordOfBytes_bytesOfWord (v : Word) : wordOfBytes (bytesOfWord v) = v := by
  apply BitVec.eq_of_toNat_eq
  simp only [wordOfBytes, bytesOfWord, List.foldl]
  simp only [BitVec.toNat_or, BitVec.toNat_shiftLeft, BitVec.toNat_setWidth, BitVec.toNat_ushiftRight]
  apply Nat.eq_of_testBit_eq
  intro i
  simp only [Nat.testBit_or, Nat.testBit_mod_two_pow, Nat.testBit_shiftLeft, Nat.testBit_shiftRight]
  by_cases h : i < 64
  · interval_cases i <;> simp
  · have : v.toNat.testBit i = false :=
      Nat.testBit_lt_two_pow (Nat.lt_of_lt_of_le v.isLt (Nat.pow_le_pow_right (by decide) (by omega)))
    simp [h, this]

/-- Eight bytes read and written are themselves. -/
theorem bytesOfWord_wordOfBytes {bs : List Byte} (h : bs.length = 8) : bytesOfWord (wordOfBytes bs) = bs := by
  match bs, h with
  | [a, b, c, d, e, f, g, k], _ =>
    simp only [wordOfBytes, bytesOfWord, List.foldl, List.cons.injEq, and_true]
    refine ⟨?_, ?_, ?_, ?_, ?_, ?_, ?_, ?_⟩ <;>
    · apply BitVec.eq_of_getLsbD_eq
      intro i hi
      simp only [BitVec.getLsbD_setWidth, BitVec.getLsbD_ushiftRight, BitVec.getLsbD_or, BitVec.getLsbD_shiftLeft]
      interval_cases i <;> simp

theorem Opcode.ofCode_code (o : Opcode) : Opcode.ofCode o.code = some o := by cases o <;> rfl

theorem Opcode.code_of_ofCode {b : Byte} {o : Opcode} (h : Opcode.ofCode b = some o) : b = o.code := by
  revert b; cases o <;> decide +kernel

/-- The undefined opcodes. -/
theorem Opcode.ofCode_none (b : Byte) : Opcode.ofCode b = none ↔ b.toNat = 0 ∨ 8 ≤ b.toNat := by
  revert b; decide +kernel

theorem Selector.ofCode_code (s : Selector) : Selector.ofCode s.code = some s := by cases s <;> rfl

theorem Selector.code_of_ofCode {b : Byte} {s : Selector} (h : Selector.ofCode b = some s) : b = s.code := by
  revert b; cases s <;> decide +kernel

/-- The reserved selectors. -/
theorem Selector.ofCode_none (b : Byte) : Selector.ofCode b = none ↔ 0x0C < b.toNat := by revert b; decide +kernel

theorem Shape.code_of_ofCode {b : BitVec 2} {s : Shape} (h : Shape.ofCode b = some s) : b = s.code := by
  revert b; cases s <;> decide

theorem Shape.ofCode_none (b : BitVec 2) : Shape.ofCode b = none ↔ b = 3 := by revert b; decide

/-- The fields of a CTL byte that the encoder built. -/
theorem controlByte_fields (refin refout checkPresent : Bool) (shape : Shape) :
    (controlByte refin refout checkPresent shape).extractLsb 7 5 = 0 ∧
    Shape.ofCode ((controlByte refin refout checkPresent shape).extractLsb 4 3) = some shape ∧
    (controlByte refin refout checkPresent shape).getLsbD 0 = refin ∧
    (controlByte refin refout checkPresent shape).getLsbD 1 = refout ∧
    (controlByte refin refout checkPresent shape).getLsbD 2 = checkPresent := by
  cases refin <;> cases refout <;> cases checkPresent <;> cases shape <;> decide

/-- A CTL byte with clear reserved bits is the one its fields build. -/
theorem controlByte_of_fields {c : Byte} {shape : Shape} (h0 : c.extractLsb 7 5 = 0) (hs : c.extractLsb 4 3 = shape.code) :
    controlByte (c.getLsbD 0) (c.getLsbD 1) (c.getLsbD 2) shape = c := by
  revert c; cases shape <;> decide +kernel

end Sys2Proof
end

