-- ==== Sys2Proof/Laws/State.lean ====
section
/-! SUPPORT. One lemma per field per update of the state: what each named update writes, and what it leaves alone. -/

namespace Sys2Proof.Machine

@[simp] theorem respond_block (st : Status) (d : Word) (s : State) : (respond st d s).block = s.block := rfl
@[simp] theorem respond_stream (st : Status) (d : Word) (s : State) : (respond st d s).stream = s.stream := rfl
@[simp] theorem respond_responses (st : Status) (d : Word) (s : State) :
    (respond st d s).responses = s.responses ++ [{ status := st, data := d }] := rfl
@[simp] theorem respond_hardwired (st : Status) (d : Word) (s : State) : (respond st d s).hardwired = s.hardwired := rfl

@[simp] theorem refuseState_block (s : State) : (refuseState s).block = s.block := rfl
@[simp] theorem refuseState_stream (s : State) : (refuseState s).stream = s.stream := rfl
@[simp] theorem refuseState_responses (s : State) :
    (refuseState s).responses = s.responses ++ [{ status := .errState, data := 0 }] := rfl
@[simp] theorem refuseState_hardwired (s : State) : (refuseState s).hardwired = s.hardwired := rfl

@[simp] theorem refuseConfig_block (c : Cause) (s : State) : (refuseConfig c s).block = s.block := rfl
@[simp] theorem refuseConfig_stream (c : Cause) (s : State) : (refuseConfig c s).stream = s.stream := rfl
@[simp] theorem refuseConfig_responses (c : Cause) (s : State) :
    (refuseConfig c s).responses = s.responses ++ [{ status := .errConfig, data := c.code }] := rfl
@[simp] theorem refuseConfig_hardwired (c : Cause) (s : State) : (refuseConfig c s).hardwired = s.hardwired := rfl

@[simp] theorem refuseIllegal_block (s : State) : (refuseIllegal s).block = s.block := rfl
@[simp] theorem refuseIllegal_stream (s : State) : (refuseIllegal s).stream = s.stream := rfl
@[simp] theorem refuseIllegal_responses (s : State) :
    (refuseIllegal s).responses = s.responses ++ [{ status := .errIllegal, data := 0 }] := rfl
@[simp] theorem refuseIllegal_hardwired (s : State) : (refuseIllegal s).hardwired = s.hardwired := rfl

@[simp] theorem setReady_block (r : Ready) (s : State) : (setReady r s).block = .ready r := rfl
@[simp] theorem setReady_stream (r : Ready) (s : State) : (setReady r s).stream = s.stream := rfl
@[simp] theorem setReady_responses (r : Ready) (s : State) : (setReady r s).responses = s.responses := rfl
@[simp] theorem setReady_hardwired (r : Ready) (s : State) : (setReady r s).hardwired = s.hardwired := rfl

@[simp] theorem raiseConfigError_block (c : Cause) (s : State) : (raiseConfigError c s).block = .configError c := rfl
@[simp] theorem raiseConfigError_stream (c : Cause) (s : State) : (raiseConfigError c s).stream = s.stream := rfl
@[simp] theorem raiseConfigError_responses (c : Cause) (s : State) :
    (raiseConfigError c s).responses = s.responses ++ [{ status := .errConfig, data := c.code }] := rfl
@[simp] theorem raiseConfigError_hardwired (c : Cause) (s : State) : (raiseConfigError c s).hardwired = s.hardwired := rfl

@[simp] theorem resetBlock_block (s : State) : (resetBlock s).block = launchBlock s.hardwired := rfl
@[simp] theorem resetBlock_stream (s : State) : (resetBlock s).stream = s.stream := rfl
@[simp] theorem resetBlock_responses (s : State) : (resetBlock s).responses = s.responses := rfl
@[simp] theorem resetBlock_hardwired (s : State) : (resetBlock s).hardwired = s.hardwired := rfl

@[simp] theorem launchBlock_none : launchBlock none = .unconfigured := rfl
@[simp] theorem launchState_block (h : Option Parameters) : (launchState h).block = launchBlock h := rfl
@[simp] theorem launchState_stream (h : Option Parameters) : (launchState h).stream = [] := rfl
@[simp] theorem launchState_responses (h : Option Parameters) : (launchState h).responses = [] := rfl
@[simp] theorem launchState_hardwired (h : Option Parameters) : (launchState h).hardwired = h := rfl
theorem launchState_none : launchState none = State.reset := rfl

@[simp] theorem presentFrame_block (f : Frame) (s : State) : (presentFrame f s).block = s.block := rfl
@[simp] theorem presentFrame_stream (f : Frame) (s : State) : (presentFrame f s).stream = .frame f :: s.stream := rfl
@[simp] theorem presentFrame_responses (f : Frame) (s : State) : (presentFrame f s).responses = s.responses := rfl
@[simp] theorem presentFrame_hardwired (f : Frame) (s : State) : (presentFrame f s).hardwired = s.hardwired := rfl

@[simp] theorem loadProgram_block (es : List HostEvent) (s : State) : (loadProgram es s).block = s.block := rfl
@[simp] theorem loadProgram_stream (es : List HostEvent) (s : State) : (loadProgram es s).stream = s.stream ++ es := rfl
@[simp] theorem loadProgram_responses (es : List HostEvent) (s : State) : (loadProgram es s).responses = s.responses := rfl
@[simp] theorem loadProgram_hardwired (es : List HostEvent) (s : State) : (loadProgram es s).hardwired = s.hardwired := rfl

@[simp] theorem makeFresh_cfg (r : Ready) : r.makeFresh.cfg = r.cfg := rfl
@[simp] theorem makeFresh_tables (r : Ready) : r.makeFresh.tables = r.tables := rfl
@[simp] theorem makeFresh_check (r : Ready) : r.makeFresh.check = r.check := rfl
@[simp] theorem makeFresh_reg (r : Ready) : r.makeFresh.reg = r.cfg.initeff := rfl
@[simp] theorem makeFresh_phase (r : Ready) : r.makeFresh.phase = .fresh := rfl

@[simp] theorem accumulate_cfg (c : Word) (r : Ready) : (r.accumulate c).cfg = r.cfg := rfl
@[simp] theorem accumulate_tables (c : Word) (r : Ready) : (r.accumulate c).tables = r.tables := rfl
@[simp] theorem accumulate_check (c : Word) (r : Ready) : (r.accumulate c).check = r.check := rfl
@[simp] theorem accumulate_reg (c : Word) (r : Ready) : (r.accumulate c).reg = c := rfl
@[simp] theorem accumulate_phase (c : Word) (r : Ready) : (r.accumulate c).phase = .accumulating := rfl

@[simp] theorem bstate_unconfigured : Block.unconfigured.bstate = 0 := rfl
@[simp] theorem bstate_ready (r : Ready) : (Block.ready r).bstate = 1 := rfl
@[simp] theorem bstate_configError (c : Cause) : (Block.configError c).bstate = 2 := rfl

@[simp] theorem makeCfg_bits (ri ro : Bool) (sh : Shape) (n : Nat) (p i x : Word) : (makeCfg ri ro sh n p i x).bits = n := rfl
@[simp] theorem makeCfg_poly (ri ro : Bool) (sh : Shape) (n : Nat) (p i x : Word) :
    (makeCfg ri ro sh n p i x).poly = p &&& lowMask n := rfl
@[simp] theorem makeCfg_refin (ri ro : Bool) (sh : Shape) (n : Nat) (p i x : Word) : (makeCfg ri ro sh n p i x).refin = ri := rfl
@[simp] theorem makeCfg_refout (ri ro : Bool) (sh : Shape) (n : Nat) (p i x : Word) : (makeCfg ri ro sh n p i x).refout = ro := rfl
@[simp] theorem makeCfg_init (ri ro : Bool) (sh : Shape) (n : Nat) (p i x : Word) :
    (makeCfg ri ro sh n p i x).init = i &&& lowMask n := rfl
@[simp] theorem makeCfg_xorout (ri ro : Bool) (sh : Shape) (n : Nat) (p i x : Word) :
    (makeCfg ri ro sh n p i x).xorout = x &&& lowMask n := rfl
@[simp] theorem makeCfg_shape (ri ro : Bool) (sh : Shape) (n : Nat) (p i x : Word) : (makeCfg ri ro sh n p i x).shape = sh := rfl
@[simp] theorem makeCfg_mask (ri ro : Bool) (sh : Shape) (n : Nat) (p i x : Word) : (makeCfg ri ro sh n p i x).mask = lowMask n := rfl

end Sys2Proof.Machine
end

