-- ==== Sys2Proof/Laws/Ops.lean ====
section
/-! SUPPORT. What each shared operation can do: the gates, the command port, table lookup, and one step. -/

namespace Sys2Proof.Machine

/-! ### The gates -/

theorem whenReady_unconfigured {s : State} (h : s.block = .unconfigured) (k : Ready → State) :
    whenReady s k = .next (refuseState s) := by simp [whenReady, h]

theorem whenReady_ready {s : State} {r : Ready} (h : s.block = .ready r) (k : Ready → State) :
    whenReady s k = .next (k r) := by simp [whenReady, h]

theorem whenReady_configError {s : State} {c : Cause} (h : s.block = .configError c) (k : Ready → State) :
    whenReady s k = .next (refuseConfig c s) := by simp [whenReady, h]

theorem whenUnconfigured_unconfigured {s : State} (h : s.block = .unconfigured) (t : State) :
    whenUnconfigured s t = .next t := by simp [whenUnconfigured, h]

theorem whenUnconfigured_ready {s : State} {r : Ready} (h : s.block = .ready r) (t : State) :
    whenUnconfigured s t = .next (refuseState s) := by simp [whenUnconfigured, h]

theorem whenUnconfigured_configError {s : State} {c : Cause} (h : s.block = .configError c) (t : State) :
    whenUnconfigured s t = .next (refuseConfig c s) := by simp [whenUnconfigured, h]

/-- Everything `whenReady` can do. -/
theorem whenReady_cases {s t : State} {k : Ready → State} (h : whenReady s k = .next t) :
    (s.block = .unconfigured ∧ t = refuseState s) ∨ (∃ r, s.block = .ready r ∧ t = k r) ∨
      (∃ c, s.block = .configError c ∧ t = refuseConfig c s) := by
  unfold whenReady at h
  split at h <;> cases h
  · exact .inl ⟨‹_›, rfl⟩
  · exact .inr (.inl ⟨_, ‹_›, rfl⟩)
  · exact .inr (.inr ⟨_, ‹_›, rfl⟩)

/-- Everything `whenUnconfigured` can do. -/
theorem whenUnconfigured_cases {s t u : State} (h : whenUnconfigured s u = .next t) :
    (s.block = .unconfigured ∧ t = u) ∨ (∃ r, s.block = .ready r ∧ t = refuseState s) ∨
      (∃ c, s.block = .configError c ∧ t = refuseConfig c s) := by
  unfold whenUnconfigured at h
  split at h <;> cases h
  · exact .inl ⟨‹_›, rfl⟩
  · exact .inr (.inl ⟨_, ‹_›, rfl⟩)
  · exact .inr (.inr ⟨_, ‹_›, rfl⟩)

/-- Everything CONFIGURE can do in state U. -/
theorem configureBlock_cases (ri ro cp : Bool) (sh : Shape) (n : Nat) (p i x k : Word) (s : State) :
    (legalWidth n = false ∧ configureBlock ri ro cp sh n p i x k s = raiseConfigError .cfgBits s) ∨
    (legalWidth n = true ∧ cp = true ∧ k ≠ (readyFrom (makeCfg ri ro sh n p i x)).check ∧
      configureBlock ri ro cp sh n p i x k s = raiseConfigError .cfgCheck s) ∨
    (legalWidth n = true ∧ (cp = true → k = (readyFrom (makeCfg ri ro sh n p i x)).check) ∧
      configureBlock ri ro cp sh n p i x k s = respond .ok 0 (setReady (readyFrom (makeCfg ri ro sh n p i x)) s)) := by
  cases hw : legalWidth n
  · exact .inl ⟨rfl, by simp [configureBlock, hw]⟩
  · refine .inr ?_
    by_cases hk : k = (readyFrom (makeCfg ri ro sh n p i x)).check
    · exact .inr ⟨rfl, fun _ => hk, by simp [configureBlock, hw, hk]⟩
    · cases cp
      · exact .inr ⟨rfl, fun h => by simp at h, by simp [configureBlock, hw]⟩
      · exact .inl ⟨rfl, rfl, hk, by simp [configureBlock, hw, hk]⟩

/-- Where a block leaves reset: in U when nothing is hard-wired, else in R or E. -/
theorem launchBlock_cases (h : Option Parameters) :
    (h = none ∧ launchBlock h = .unconfigured) ∨
    (∃ p cause, h = some p ∧ launchBlock h = .configError cause) ∨
    (∃ p, h = some p ∧ legalWidth p.bits = true ∧
      launchBlock h = .ready (readyFrom (makeCfg p.refin p.refout p.shape p.bits p.poly p.init p.xorout))) := by
  cases h with
  | none => exact .inl ⟨rfl, rfl⟩
  | some p =>
    refine .inr ?_
    simp only [launchBlock]
    obtain ⟨-, e⟩ | ⟨-, -, -, e⟩ | ⟨hw, -, e⟩ :=
      configureBlock_cases p.refin p.refout p.checkPresent p.shape p.bits p.poly p.init p.xorout p.check State.reset
    · exact .inl ⟨p, .cfgBits, rfl, by simp [e]⟩
    · exact .inl ⟨p, .cfgCheck, rfl, by simp [e]⟩
    · exact .inr ⟨p, rfl, hw, by simp [e]⟩

/-! ### Texts -/

@[simp] theorem asciiBytes_nil : asciiBytes [] = [] := rfl
@[simp] theorem asciiBytes_cons (c : Char) (text : List Char) : asciiBytes (c :: text) = .ofNat 8 c.toNat :: asciiBytes text := rfl

/-! ### The command port and one step -/

theorem takeEvent_none {s : State} (h : s.stream = []) : takeEvent s = none := by simp [takeEvent, h]

theorem takeEvent_some {s : State} {e : HostEvent} {es : List HostEvent} (h : s.stream = e :: es) :
    takeEvent s = some (e, { s with stream := es }) := by simp [takeEvent, h]

theorem step_idle {s : State} (h : s.stream = []) : step s = .next s := by simp [step, takeEvent_none h]

theorem step_reset {s : State} {es : List HostEvent} (h : s.stream = .reset :: es) :
    step s = .next (resetBlock { s with stream := es }) := by simp [step, takeEvent_some h]

theorem step_illegal {s : State} {f : Frame} {es : List HostEvent} {e : Illegal} (h : s.stream = .frame f :: es)
    (hd : decode f = .error e) : step s = .next (refuseIllegal { s with stream := es }) := by
  simp [step, takeEvent_some h, hd]

theorem step_command {s : State} {f : Frame} {es : List HostEvent} {i : Instr} (h : s.stream = .frame f :: es)
    (hd : decode f = .ok i) : step s = exec i { s with stream := es } := by
  simp [step, takeEvent_some h, hd]

/-- Everything a step can do. -/
theorem step_cases (s : State) :
    (s.stream = [] ∧ step s = .next s) ∨
    (∃ es, s.stream = .reset :: es ∧ step s = .next (resetBlock { s with stream := es })) ∨
    (∃ f es e, s.stream = .frame f :: es ∧ decode f = .error e ∧ step s = .next (refuseIllegal { s with stream := es })) ∨
    (∃ f es i, s.stream = .frame f :: es ∧ decode f = .ok i ∧ step s = exec i { s with stream := es }) := by
  cases hs : s.stream with
  | nil => exact .inl ⟨rfl, step_idle hs⟩
  | cons e es =>
    refine .inr ?_
    cases e with
    | reset => exact .inl ⟨es, rfl, step_reset hs⟩
    | frame f =>
      refine .inr ?_
      cases hd : decode f with
      | error e => exact .inl ⟨f, es, e, rfl, hd, step_illegal hs hd⟩
      | ok i => exact .inr ⟨f, es, i, rfl, hd, step_command hs hd⟩

/-! ### Tables -/

@[simp] theorem lookup256_tabulate (f : Nat → Word) (i : Byte) : lookup256 (tabulate 256 f) i = f i.toNat := by
  simp [lookup256, tabulate]

@[simp] theorem lookup16_tabulate (f : Nat → Word) (i : Nibble) : lookup16 (tabulate 16 f) i = f i.toNat := by
  simp [lookup16, tabulate]

end Sys2Proof.Machine
end

