-- ==== Sys2Proof/Laws/PerInstr.lean ====
section
/-! SUPPORT. Facts of every command as syntax, one lemma per constructor. -/

namespace Sys2Proof.Laws.FrameForm

/-- The frame of a command has its format's length and begins with its opcode byte, which is one the decoder knows (spec/30_encoding.md R72). -/
def Statement (i : Instr) : Prop :=
  (encode i).len = i.opcode.frameBits ∧ Opcode.ofCode i.opcode.code = some i.opcode ∧
    ∃ rest, encode i = .whole (i.opcode.code :: rest)

theorem configure (refin refout checkPresent : Bool) (shape : Shape) (bits : Nat) (poly init xorout check : Word) :
    Statement (.configure refin refout checkPresent shape bits poly init xorout check) := ⟨rfl, rfl, _, rfl⟩

theorem getEngine : Statement .getEngine := ⟨rfl, rfl, _, rfl⟩

theorem update (b : Byte) : Statement (.update b) := ⟨rfl, rfl, _, rfl⟩

theorem updateBits (v : Word) (n : Nat) : Statement (.updateBits v n) := ⟨rfl, rfl, _, rfl⟩

theorem finalize : Statement .finalize := ⟨rfl, rfl, _, rfl⟩

theorem read (sel : Selector) : Statement (.read sel) := ⟨rfl, rfl, _, rfl⟩

theorem bitsRev (v : Word) (n : Nat) : Statement (.bitsRev v n) := ⟨rfl, rfl, _, rfl⟩

end Sys2Proof.Laws.FrameForm
end

