-- ==== Sys2Proof/Laws/Recurrence.lean ====
section
/-! SUPPORT. The recurrence as iterated shifts: folding a bit into a register is one shift of the register with the bit joined to it, so a run of
bits is that many shifts, in either mode; and the left-aligned working form of a direct register is a wider direct register. -/

namespace Sys2Proof.Machine

theorem fits_ext {x y : Word} {n : Nat} (hx : Fits x n) (hy : Fits y n)
    (h : ∀ i, i < n → x.getLsbD i = y.getLsbD i) : x = y := by
  apply BitVec.eq_of_getLsbD_eq
  intro i _
  by_cases hi : i < n
  · exact h i hi
  · rw [hx.bit (Nat.le_of_not_lt hi), hy.bit (Nat.le_of_not_lt hi)]

theorem Fits.shiftLeft {v : Word} {n : Nat} (h : Fits v n) (k : Nat) : Fits (v <<< k) (n + k) :=
  fits_iff.2 fun i hi => by simp [h.bit (show n ≤ i - k by omega)]

/-! ### A sequence of bits depends only on the bits it reads -/

theorem bitsUp_congr {x y : Word} {n : Nat} (h : ∀ i, i < n → x.getLsbD i = y.getLsbD i) : bitsUp x n = bitsUp y n :=
  List.map_congr_left fun i hi => h i (List.mem_range.1 hi)

theorem bitsDown_congr {x y : Word} {n : Nat} (h : ∀ i, i < n → x.getLsbD i = y.getLsbD i) : bitsDown x n = bitsDown y n :=
  List.map_congr_left fun i hi => h _ (by have := List.mem_range.1 hi; omega)

theorem bitsUp_mask (x : Word) {n : Nat} (hn : n ≤ 64) : bitsUp (x &&& lowMask n) n = bitsUp x n :=
  bitsUp_congr fun i hi => by simp [getLsbD_lowMask hn, hi]

theorem bitsDown_mask (x : Word) {n : Nat} (hn : n ≤ 64) : bitsDown (x &&& lowMask n) n = bitsDown x n :=
  bitsDown_congr fun i hi => by simp [getLsbD_lowMask hn, hi]

/-- Upward, the low bits come first. -/
theorem bitsUp_add (v : Word) (n m : Nat) : bitsUp v (n + m) = bitsUp v n ++ bitsUp (v >>> n) m := by
  simp [bitsUp, List.range_add]

/-- Downward, the high bits come first. -/
theorem bitsDown_add (v : Word) (n m : Nat) : bitsDown v (n + m) = bitsDown (v >>> m) n ++ bitsDown v m := by
  induction n with
  | zero => simp
  | succ n ih =>
    rw [show n + 1 + m = (n + m) + 1 by omega, bitsDown_succ, bitsDown_succ, ih]
    simp [Nat.add_comm]

theorem foldSeq_append (cfg : Cfg) (c : Word) (s t : List Bool) :
    foldSeq cfg c (s ++ t) = foldSeq cfg (foldSeq cfg c s) t := by simp [foldSeq]

/-! ### Reflected input: one bit is one shift -/

theorem stepR_eq_shiftR (cfg : Cfg) (c d : Word) :
    stepR cfg c (d.getLsbD 0) ^^^ (d >>> 1) = shiftR cfg (c ^^^ d) := by
  simp only [stepR, shiftR, BitVec.ushiftRight_xor_distrib, BitVec.getLsbD_xor]
  ac_rfl

theorem foldSeq_bitsUp {cfg : Cfg} (hr : cfg.refin = true) (m : Nat) (c d : Word) (hd : Fits d m) :
    foldSeq cfg c (bitsUp d m) = (shiftR cfg)^[m] (c ^^^ d) := by
  induction m generalizing c d with
  | zero =>
    have : d = 0 := fits_ext hd (fits_zero 0) fun i hi => by omega
    simp [this]
  | succ m ih =>
    have := ih (stepR cfg c (d.getLsbD 0)) (d >>> 1) (by simpa using hd.ushiftRight 1)
    rw [stepR_eq_shiftR] at this
    rw [bitsUp_succ, foldSeq_cons, stepBit, if_pos hr, this]
    rfl

/-- A shift of zero is zero; shifting a value whose low bits are clear only moves it. -/
theorem shiftR_iterate_clear (cfg : Cfg) (m : Nat) (x : Word) (h : ∀ i, i < m → x.getLsbD i = false) :
    (shiftR cfg)^[m] x = x >>> m := by
  induction m generalizing x with
  | zero => simp
  | succ m ih =>
    have h0 : shiftR cfg x = x >>> 1 := by rw [shiftR, h 0 (by omega)]; simp
    rw [Function.iterate_succ, Function.comp, h0, ih _ fun i hi => by simpa using h (1 + i) (by omega)]
    rw [← BitVec.shiftRight_add, Nat.add_comm]

theorem shiftR_iterate_zero (cfg : Cfg) (m : Nat) : (shiftR cfg)^[m] 0 = 0 := by
  simpa using shiftR_iterate_clear cfg m 0 (by simp)

/-- A value is its low `m` bits and the rest. -/
theorem xor_lowMask (x : Word) (m : Nat) : x = (x >>> m <<< m) ^^^ (x &&& lowMask (min m 64)) := by
  apply BitVec.eq_of_getLsbD_eq
  intro i hi
  simp only [BitVec.getLsbD_xor, BitVec.getLsbD_and, BitVec.getLsbD_shiftLeft, BitVec.getLsbD_ushiftRight,
    getLsbD_lowMask (Nat.min_le_right m 64)]
  by_cases h : i < m
  · simp [h, hi]
  · simp [h, hi, show m + (i - m) = i by omega]

/-- Shifting a register `m` times: what is tested is its low `m` bits. -/
theorem shiftR_iterate (cfg : Cfg) {m : Nat} (hm : m ≤ 64) (x : Word) :
    (shiftR cfg)^[m] x = (x >>> m) ^^^ (shiftR cfg)^[m] (x &&& lowMask m) := by
  conv => lhs; rw [xor_lowMask x m, iterate_xor (shiftR_xor cfg), Nat.min_eq_left hm]
  rw [shiftR_iterate_clear cfg m (x >>> m <<< m) fun i hi => by simp [hi]]
  congr 1
  apply BitVec.eq_of_getLsbD_eq
  intro i hi
  simp only [BitVec.getLsbD_ushiftRight, BitVec.getLsbD_shiftLeft]
  by_cases h : m + i < 64
  · simp [h]
  · simp [h]; exact (fits_64 x).bit (by omega)

/-! ### Direct input: one bit is one shift -/

/-- A direct register machine: a width with its mask, and a polynomial of that width. -/
structure Direct (cfg : Cfg) : Prop where
  refin : cfg.refin = false
  pos : 1 ≤ cfg.bits
  le : cfg.bits ≤ 64
  mask : cfg.mask = lowMask cfg.bits
  poly : Fits cfg.poly cfg.bits

theorem Cfg.Legal.direct {cfg : Cfg} (h : cfg.Legal) (hr : cfg.refin = false) : Direct cfg :=
  ⟨hr, h.width.1, h.width.2, h.mask, h.poly⟩

theorem Direct.shiftD_fits {cfg : Cfg} (h : Direct cfg) (x : Word) : Fits (shiftD cfg x) cfg.bits :=
  Fits.xor (by rw [h.mask]; exact fits_lowMask h.le _) (h.poly.gated _)

theorem Direct.iterate_fits {cfg : Cfg} (h : Direct cfg) {x : Word} (hx : Fits x cfg.bits) (m : Nat) :
    Fits ((shiftD cfg)^[m] x) cfg.bits := by
  cases m with
  | zero => exact hx
  | succ m => rw [Function.iterate_succ']; exact h.shiftD_fits _

/-- The next data bit joined at the top. -/
theorem Direct.stepD_eq_shiftD {cfg : Cfg} (h : Direct cfg) {m : Nat} (hm : m + 1 ≤ cfg.bits) (c d : Word) :
    stepD cfg c (d.getLsbD m) ^^^ ((d &&& lowMask m) <<< (cfg.bits - m)) =
      shiftD cfg (c ^^^ d <<< (cfg.bits - (m + 1))) := by
  have hl := h.le
  have e1 : (d <<< (cfg.bits - (m + 1))) <<< 1 &&& cfg.mask = (d &&& lowMask m) <<< (cfg.bits - m) := by
    apply BitVec.eq_of_getLsbD_eq
    intro i hi
    rw [h.mask]
    simp only [BitVec.getLsbD_and, BitVec.getLsbD_shiftLeft, getLsbD_lowMask hl, getLsbD_lowMask (show m ≤ 64 by omega)]
    have : i - 1 - (cfg.bits - (m + 1)) = i - (cfg.bits - m) ∨ i < 1 ∨ i < cfg.bits - m := by omega
    by_cases h1 : i < cfg.bits - m
    · have : i < 1 ∨ i - 1 < cfg.bits - (m + 1) := by omega
      rcases this with h2 | h2
      · simp [h1, h2]
      · simp [h1, h2]
    · have e : i - 1 - (cfg.bits - (m + 1)) = i - (cfg.bits - m) := by omega
      have h2 : ¬ i < 1 := by omega
      have h3 : ¬ i - 1 < cfg.bits - (m + 1) := by omega
      have h4 : i - 1 < 64 := by omega
      have h5 : (i < cfg.bits) ↔ (i - (cfg.bits - m) < m) := by omega
      simp [h1, h2, h3, h4, hi, e, h5]
  have e2 : (d <<< (cfg.bits - (m + 1))).getLsbD (cfg.bits - 1) = d.getLsbD m := by
    rw [BitVec.getLsbD_shiftLeft]
    have h1 : cfg.bits - 1 < 64 := by omega
    have h2 : ¬ cfg.bits - 1 < cfg.bits - (m + 1) := by omega
    have h3 : cfg.bits - 1 - (cfg.bits - (m + 1)) = m := by omega
    simp [h1, h2, h3]
  simp only [stepD, shiftD, BitVec.shiftLeft_xor_distrib, xor_and_distrib, BitVec.getLsbD_xor, gated_xor, e1, e2]
  ac_rfl

theorem Direct.foldSeq_bitsDown {cfg : Cfg} (h : Direct cfg) (m : Nat) (hm : m ≤ cfg.bits) (c d : Word) (hd : Fits d m) :
    foldSeq cfg c (bitsDown d m) = (shiftD cfg)^[m] (c ^^^ d <<< (cfg.bits - m)) := by
  have hl := h.le
  induction m generalizing c d with
  | zero =>
    have : d = 0 := fits_ext hd (fits_zero 0) fun i hi => by omega
    simp [this]
  | succ m ih =>
    have := ih (by omega) (stepD cfg c (d.getLsbD m)) (d &&& lowMask m) (fits_lowMask (by omega) d)
    rw [bitsDown_mask d (by omega), h.stepD_eq_shiftD hm c d] at this
    simpa [bitsDown_succ, stepBit, h.refin, Function.iterate_succ] using this

/-- Shifting a value with nothing in its top `m` bits only moves it. -/
theorem Direct.iterate_clear {cfg : Cfg} (h : Direct cfg) (m : Nat) (x : Word) (hm : m ≤ cfg.bits)
    (hx : Fits x (cfg.bits - m)) : (shiftD cfg)^[m] x = x <<< m := by
  have hl := h.le
  induction m generalizing x with
  | zero => simp
  | succ m ih =>
    have h0 : shiftD cfg x = x <<< 1 := by
      have hb : x.getLsbD (cfg.bits - 1) = false := hx.bit (by omega)
      have hf : Fits (x <<< 1) cfg.bits := (hx.shiftLeft 1).mono (by omega)
      simp [shiftD, hb, h.mask, hf.and_lowMask hl]
    rw [Function.iterate_succ, Function.comp, h0, ih _ (by omega) ((hx.shiftLeft 1).mono (by omega)),
      ← BitVec.shiftLeft_add, Nat.add_comm]

theorem shiftD_iterate_zero (cfg : Cfg) (m : Nat) : (shiftD cfg)^[m] 0 = 0 := by
  induction m with
  | zero => rfl
  | succ m ih => rw [Function.iterate_succ', Function.comp, ih]; simp [shiftD]

/-- Shifting a register `m` times: what is tested is its top `m` bits. -/
theorem Direct.iterate {cfg : Cfg} (h : Direct cfg) {m : Nat} (hm : m ≤ cfg.bits) (x : Word) :
    (shiftD cfg)^[m] x =
      ((x <<< m) &&& cfg.mask) ^^^ (shiftD cfg)^[m] (x >>> (cfg.bits - m) <<< (cfg.bits - m)) := by
  have hl := h.le
  have e : x = (x &&& lowMask (cfg.bits - m)) ^^^ (x >>> (cfg.bits - m) <<< (cfg.bits - m)) := by
    have := xor_lowMask x (cfg.bits - m)
    rw [Nat.min_eq_left (show cfg.bits - m ≤ 64 by omega), BitVec.xor_comm] at this
    exact this
  conv => lhs; rw [e, iterate_xor (shiftD_xor cfg)]
  rw [h.iterate_clear m _ hm (fits_lowMask (by omega) x)]
  congr 1
  apply BitVec.eq_of_getLsbD_eq
  intro i hi
  rw [h.mask]
  simp only [BitVec.getLsbD_and, BitVec.getLsbD_shiftLeft, getLsbD_lowMask hl,
    getLsbD_lowMask (show cfg.bits - m ≤ 64 by omega)]
  have h5 : m ≤ i → ((i < cfg.bits) ↔ (i - m < cfg.bits - m)) := by omega
  by_cases h1 : i < m
  · simp [h1]
  · simp [h1, hi, h5 (by omega)]

/-! ### The working form -/

/-- The direct register left-aligned in at least 8 bits, as a configuration of its own (R141, R161). -/
def Cfg.work (cfg : Cfg) : Cfg :=
  { cfg with bits := cfg.workBits, poly := cfg.poly <<< cfg.align, mask := cfg.workMask }

theorem workBits_eq {cfg : Cfg} (hr : cfg.refin = false) : cfg.workBits = cfg.bits + cfg.align := by
  simp only [Cfg.workBits, Cfg.align, hr]
  by_cases h : cfg.bits < 8
  · simp [h]; omega
  · simp [h]; omega

theorem Direct.work {cfg : Cfg} (h : Direct cfg) : Direct cfg.work where
  refin := h.refin
  pos := by simp [Cfg.work, workBits_eq h.refin]; have := h.pos; omega
  le := by simp [Cfg.work, Cfg.workBits, h.refin]; exact h.le
  mask := rfl
  poly := by
    have := h.poly.shiftLeft cfg.align
    rwa [← workBits_eq h.refin] at this

theorem Direct.workBits_ge {cfg : Cfg} (h : Direct cfg) : 8 ≤ cfg.work.bits := by
  simp [Cfg.work, Cfg.workBits, h.refin]

/-- A step of the working form is the working form of the step. -/
theorem Direct.stepD_work {cfg : Cfg} (h : Direct cfg) (c : Word) (d : Bool) :
    stepD cfg.work (c <<< cfg.align) d = stepD cfg c d <<< cfg.align := by
  have hw := workBits_eq h.refin
  have hl := h.work.le
  have hp := h.pos
  have e1 : (c <<< cfg.align).getLsbD (cfg.work.bits - 1) = c.getLsbD (cfg.bits - 1) := by
    rw [BitVec.getLsbD_shiftLeft]
    have hb : cfg.work.bits = cfg.bits + cfg.align := hw
    have h1 : cfg.work.bits - 1 < 64 := by omega
    have h2 : ¬ cfg.work.bits - 1 < cfg.align := by omega
    have h3 : cfg.work.bits - 1 - cfg.align = cfg.bits - 1 := by omega
    simp [h1, h2, h3]
  have e2 : (c <<< cfg.align) <<< 1 &&& cfg.work.mask = ((c <<< 1) &&& cfg.mask) <<< cfg.align := by
    apply BitVec.eq_of_getLsbD_eq
    intro i hi
    rw [h.work.mask, h.mask]
    have hb : cfg.work.bits = cfg.bits + cfg.align := hw
    simp only [BitVec.getLsbD_and, BitVec.getLsbD_shiftLeft, getLsbD_lowMask hl, getLsbD_lowMask h.le]
    by_cases h1 : i < cfg.align
    · have : i < 1 ∨ i - 1 < cfg.align := by omega
      rcases this with h2 | h2
      · simp [h1, h2]
      · simp [h1, h2]
    · by_cases h2 : i < cfg.align + 1
      · have h3 : i < 1 ∨ i - 1 < cfg.align := by omega
        have h4 : i - cfg.align < 1 := by omega
        rcases h3 with h3 | h3
        · simp [h3, h4]
        · simp [h3, h4]
      · have h3 : ¬ i < 1 := by omega
        have h4 : ¬ i - 1 < cfg.align := by omega
        have h5 : ¬ i - cfg.align < 1 := by omega
        have h6 : i - 1 - cfg.align = i - cfg.align - 1 := by omega
        have h7 : i < cfg.work.bits ↔ i - cfg.align < cfg.bits := by omega
        have h8 : i - 1 < 64 := by omega
        have h9 : i - cfg.align < 64 := by omega
        simp [h1, h3, h4, h5, h6, h7, h8, h9, hi]
  have e3 : ∀ t : Bool, gated t cfg.work.poly = gated t cfg.poly <<< cfg.align := by
    intro t; cases t
    · simp
    · rfl
  simp only [stepD, e1, e2, e3, BitVec.shiftLeft_xor_distrib]

theorem Direct.foldSeq_work {cfg : Cfg} (h : Direct cfg) (c : Word) (ds : List Bool) :
    foldSeq cfg.work (c <<< cfg.align) ds = foldSeq cfg c ds <<< cfg.align := by
  induction ds generalizing c with
  | nil => rfl
  | cons d ds ih =>
    have hw : cfg.work.refin = false := h.work.refin
    simp only [foldSeq_cons, stepBit, h.refin, hw, Bool.false_eq_true, if_false, h.stepD_work]
    exact ih _

theorem Direct.foldSeq_fits {cfg : Cfg} (h : Direct cfg) {c : Word} (hc : Fits c cfg.bits) (ds : List Bool) :
    Fits (foldSeq cfg c ds) cfg.bits := by
  induction ds generalizing c with
  | nil => exact hc
  | cons d ds ih =>
    have : Fits (stepBit cfg c d) cfg.bits := by
      simp only [stepBit, h.refin, Bool.false_eq_true, if_false, stepD]
      exact Fits.xor (by rw [h.mask]; exact fits_lowMask h.le _) (h.poly.gated _)
    exact ih this

/-- The working form loses nothing. -/
theorem ofWork_toWork {cfg : Cfg} (hw : cfg.workBits ≤ 64) (hr : cfg.refin = false) {c : Word} (hc : Fits c cfg.bits) :
    (c <<< cfg.align) >>> cfg.align = c := by
  rw [workBits_eq hr] at hw
  apply BitVec.eq_of_getLsbD_eq
  intro i _
  simp only [BitVec.getLsbD_ushiftRight, BitVec.getLsbD_shiftLeft]
  by_cases h : i < cfg.bits
  · simp [show cfg.align + i < 64 by omega]
  · simp [hc.bit (Nat.le_of_not_lt h)]

end Sys2Proof.Machine
end

