-- ==== Sys2Proof/Laws/Reversal.lean ====
section
/-! SUPPORT. Bit reversal, bit by bit. -/

namespace Sys2Proof.Machine

/-- Each bit of a reversal. -/
theorem getLsbD_bitsRev (v : Word) {n : Nat} (hn : n ≤ 64) (j : Nat) :
    (bitsRev v n).getLsbD j = (decide (j < n) && v.getLsbD (n - 1 - j)) := by
  induction n generalizing j with
  | zero => simp [bitsRev]
  | succ n ih =>
    simp only [bitsRev, BitVec.getLsbD_or, BitVec.getLsbD_shiftLeft]
    cases j with
    | zero => cases h : v.getLsbD n <;> simp [wordOfBit, h]
    | succ j =>
      have hw : (wordOfBit (v.getLsbD n)).getLsbD (j + 1) = false := by unfold wordOfBit; split <;> simp
      rw [Nat.add_sub_cancel, ih (by omega), hw, show n + 1 - 1 - (j + 1) = n - 1 - j by omega]
      by_cases hj : j < n
      · simp [hj, show j + 1 < 64 by omega]
      · simp [hj]

theorem fits_bitsRev (v : Word) {n : Nat} (hn : n ≤ 64) : Fits (bitsRev v n) n :=
  fits_iff.2 fun i hi => by rw [getLsbD_bitsRev v hn]; simp; omega

end Sys2Proof.Machine
end

