-- ==== Sys2Proof/Tests/Slice0.lean ====
section
/-! SUPPORT. Tests of one step or one function each, their expected values from spec/95_test_vectors.md and spec/96_test_vectors_derived.md; the
smoke test of WellFormed; frames written out from the encodings of spec/30_encoding.md; and a witness that meets the hypotheses of each statement. -/

namespace Sys2Proof.Tests

open Sys2Proof.Machine

-- One test at a time: kernel evaluations waiting for each other would each hold a thread.
set_option Elab.async false

/-! ### Small configurations and states (the parameter sets of spec/95_test_vectors.md section 0) -/

/-- CRC-5/USB: reflected, narrower than a byte. -/
def crc5usb : Cfg := makeCfg true true .s16 5 0x05 0x1F 0x1F

/-- CRC-5/EPC: direct, narrower than a byte. -/
def crc5epc : Cfg := makeCfg false false .s256 5 0x09 0x09 0x00

/-- CRC-16/CCITT-FALSE: direct. -/
def crc16 : Cfg := makeCfg false false .s2x16 16 0x1021 0xFFFF 0x0000

/-- CRC-32: reflected. -/
def crc32 : Cfg := makeCfg true true .s16 32 0x04C11DB7 0xFFFFFFFF 0xFFFFFFFF

/-- CRC-12/UMTS: direct input, reflected output. -/
def crc12 : Cfg := makeCfg false true .s2x16 12 0x80F 0x000 0x000

/-- CRC-64/XZ: the full width. -/
def crc64 : Cfg := makeCfg true true .s2x16 64 0x42F0E1EBA9EA3693 0xFFFFFFFFFFFFFFFF 0xFFFFFFFFFFFFFFFF

/-- The one-bit register of program P6. -/
def crc1 : Cfg := makeCfg false false .s16 1 0x1 0x0 0x0

/-- What a ready block holds, with this register and phase. -/
def readyR (cfg : Cfg) (reg : Word) (phase : Phase) : Ready := { readyFrom cfg with reg, phase }

/-- A ready block with this register and phase, and nothing sent. -/
def stateR (cfg : Cfg) (reg : Word) (phase : Phase) : State :=
  { block := .ready (readyR cfg reg phase), stream := [], responses := [], hardwired := none }

/-- A block in state E. -/
def stateE (cause : Cause) : State := { block := .configError cause, stream := [], responses := [], hardwired := none }

/-- The state a step leaves; it always leaves one. -/
def after : Result → State
  | .next t => t
  | .fault _ => State.reset
  | .refused _ => State.reset

/-- REG and PHASE, when they have a value. -/
def engine (r : Result) : Option (Word × Phase) := (after r).block.ready?.map fun q => (q.reg, q.phase)

/-- The last response, as its status and data. -/
def answer (r : Result) : Option (Status × Word) := (after r).lastResponse.map fun a => (a.status, a.data)

/-! ### WellFormed refuses each ill-formed field -/

theorem test_wf_bits_256 : (Instr.configure true true true .s256 256 0 0 0 0).wf = false := by decide
theorem test_wf_bits_255 : (Instr.configure true true true .s256 255 0 0 0 0).wf = true := by decide
theorem test_wf_updateBits_65 : (Instr.updateBits 0 65).wf = false := by decide
theorem test_wf_updateBits_64 : (Instr.updateBits 0 64).wf = true := by decide
theorem test_wf_bitsRev_65 : (Instr.bitsRev 0 65).wf = false := by decide
theorem test_wf_bitsRev_64 : (Instr.bitsRev 0 64).wf = true := by decide

/-! ### Decoding: frames written out from R72 to R77 (section 2.9, program P3) -/

theorem test_decode_configure :
    decode (.whole [0x01, 0x17, 0x05, 0, 0, 0, 0, 0, 0, 0, 0x05, 0, 0, 0, 0, 0, 0, 0, 0x1F, 0, 0, 0, 0, 0, 0, 0, 0x1F,
      0, 0, 0, 0, 0, 0, 0, 0x19]) = .ok (.configure true true true .s16 5 0x05 0x1F 0x1F 0x19) := by rfl

/-- CTL = 0x08: shape 1, no flag (program P2). -/
theorem test_decode_configure_direct :
    decode (.whole [0x01, 0x08, 0x10, 0, 0, 0, 0, 0, 0, 0x10, 0x21, 0, 0, 0, 0, 0, 0, 0xFF, 0xFF, 0, 0, 0, 0, 0, 0, 0, 0,
      0, 0, 0, 0, 0, 0, 0, 0]) = .ok (.configure false false false .s2x16 16 0x1021 0xFFFF 0 0) := by rfl

/-- CTL = 0x06: RO and CP without RI (spec/95_test_vectors.md, program P6, step 1); and CTL = 0x01, RI alone, by R77. -/
theorem test_decode_configure_reflections :
    decode (.whole [0x01, 0x06, 0x0C, 0, 0, 0, 0, 0, 0, 0x08, 0x0F, 0, 0, 0, 0, 0, 0, 0, 0, 0, 0, 0, 0, 0, 0, 0, 0,
      0, 0, 0, 0, 0, 0, 0x0D, 0xAF]) = .ok (.configure false true true .s256 12 0x80F 0 0 0xDAF) ∧
    decode (.whole [0x01, 0x01, 0x0C, 0, 0, 0, 0, 0, 0, 0x08, 0x0F, 0, 0, 0, 0, 0, 0, 0, 0, 0, 0, 0, 0, 0, 0, 0, 0,
      0, 0, 0, 0, 0, 0, 0, 0]) = .ok (.configure true false false .s256 12 0x80F 0 0 0) := by refine ⟨?_, ?_⟩ <;> rfl

theorem test_decode_getEngine : decode (.whole [0x02]) = .ok .getEngine := by rfl
theorem test_decode_update : decode (.whole [0x03, 0x31]) = .ok (.update 0x31) := by rfl
theorem test_decode_updateBits :
    decode (.whole [0x04, 0x0D, 0, 0, 0, 0, 0, 0, 0x1A, 0xBC]) = .ok (.updateBits 0x1ABC 13) := by rfl
theorem test_decode_finalize : decode (.whole [0x05]) = .ok .finalize := by rfl
theorem test_decode_read : decode (.whole [0x06, 0x0C]) = .ok (.read .phase) := by rfl
theorem test_decode_bitsRev :
    decode (.whole [0x07, 0x40, 0, 0, 0, 0, 0, 0, 0, 0x01]) = .ok (.bitsRev 0x1 64) := by rfl

theorem test_decode_illegal_length : decode (.whole [0x03, 0x31, 0x00]) = .error .length := by rfl
theorem test_decode_illegal_ragged : decode (.ragged [0x05] 2 0) = .error .length := by rfl
theorem test_decode_illegal_opcode : decode (.whole [0x08]) = .error .opcode := by rfl
theorem test_decode_illegal_pair : decode (.whole [0x05, 0x00]) = .error .lengthForOpcode := by rfl
theorem test_decode_illegal_count :
    decode (.whole [0x04, 0x41, 0, 0, 0, 0, 0, 0, 0, 0]) = .error .count := by rfl
theorem test_decode_illegal_selector : decode (.whole [0x06, 0x0D]) = .error .selector := by rfl

/-- CTL = 0x27 and CTL = 0x1F (program P4, steps 23 and 24). -/
theorem test_decode_illegal_control :
    decode (.whole ([0x01, 0x27, 0x20] ++ List.replicate 32 0)) = .error .control ∧
    decode (.whole ([0x01, 0x1F, 0x20] ++ List.replicate 32 0)) = .error .control := by
  constructor <;> rfl

/-- A row's bits as spec/opcode_table.json numbers them, and the step that runs them. -/
theorem test_tableWord :
    decodeTableWord 8 0x02 = some .getEngine ∧ decodeTableWord 16 0x0331 = some (.update 0x31) ∧
    decodeTableWord 80 0x040D0000000000001ABC = some (.updateBits 0x1ABC 13) ∧
    decodeTableWord 280 (0x0103 * 2 ^ 256 * 2 ^ 8 + 0x08 * 2 ^ 256 + 0x07 * 2 ^ 192) =
      some (.configure true true false .s256 8 0x07 0 0 0) := by
  refine ⟨rfl, rfl, rfl, rfl⟩

theorem test_withFetchWord :
    answer (step (State.reset.withFetchWord 80 0x070D0000000000001ABC)) = some (.ok, 0x7AB) := by decide +kernel

/-! ### The assembler's language (R82, R83) -/

theorem test_parse_configure :
    parseLine "CONFIGURE bits=5 poly=0x05 refin=1 refout=1 init=0x1F xorout=0x1F check=0x19 shape=16".toList =
      some (.configure 5 0x05 true true 0x1F 0x1F (some 0x19) (some .s16)) := by decide +kernel

theorem test_parse_calc :
    (parseLine "CALC 0x31, 0x32".toList).map assemble =
      some [.getEngine, .update 0x31, .update 0x32, .finalize] := by decide +kernel

/-! ### Commands: one step each -/

/-- Program P3, step 1: the check value 0x19 is right. -/
theorem test_configure_ok :
    (after (exec (.configure true true true .s16 5 0x05 0x1F 0x1F 0x19) State.reset)).block = .ready (readyFrom crc5usb) ∧
    answer (exec (.configure true true true .s16 5 0x05 0x1F 0x1F 0x19) State.reset) = some (.ok, 0) := by decide +kernel

/-- Program P4, steps 7 and 17: a wrong check value is cause 2; a width of 65 is cause 1 whatever the check. -/
theorem test_configure_errors :
    answer (exec (.configure true true true .s256 32 0x04C11DB7 0xFFFFFFFF 0xFFFFFFFF 0xCBF43927) State.reset) = some (.errConfig, 2) ∧
    (after (exec (.configure false false true .s256 65 0x07 0 0 0x1234) State.reset)).block = .configError .cfgBits := by
  decide +kernel

/-- Program P1, step 29. -/
theorem test_getEngine : engine (exec .getEngine (stateR crc32 0x7C231048 .accumulating)) = some (0xFFFFFFFF, .fresh) := by
  decide +kernel

/-- Section 2.3. -/
theorem test_update :
    engine (exec (.update 0x31) (stateR crc32 0xFFFFFFFF .fresh)) = some (0x7C231048, .accumulating) ∧
    engine (exec (.update 0x31) (stateR crc5epc 0x09 .fresh)) = some (0x12, .accumulating) := by decide +kernel

/-- Program P1, step 1 to 15, by the slow recurrence; section 2.2's last register. -/
theorem test_fold :
    foldByte crc32 0xFFFFFFFF 0x31 = 0x7C231048 ∧ foldBits crc5usb 0x1F 0x31 8 = 0x03 ∧
    calcByte crc5epc 0x09 0xC0 2 = 0x16 := by decide +kernel

/-- Program P3, step 6, and section 2.6: eleven bits reflected, thirteen bits direct. -/
theorem test_updateBits :
    engine (exec (.updateBits 0x710 11) (stateR crc5usb 0x1F .fresh)) = some (0x1A, .accumulating) ∧
    engine (exec (.updateBits 0x1ABC 13) (stateR crc16 0xFFFF .fresh)) = some (0x6752, .accumulating) := by decide +kernel

/-- Program P2, step 14: no bit is folded, but PHASE moves. -/
theorem test_updateBits_none :
    engine (exec (.updateBits 0 0) (stateR crc16 0xFFFF .fresh)) = some (0xFFFF, .accumulating) := by decide +kernel

/-- Program P6, step 11: the output is reversed; the engine is Fresh after it. -/
theorem test_finalize :
    answer (exec .finalize (stateR crc12 0xF5B .accumulating)) = some (.ok, 0xDAF) ∧
    engine (exec .finalize (stateR crc12 0xF5B .accumulating)) = some (0, .fresh) := by decide +kernel

/-- Section 2.8. -/
theorem test_read :
    answer (exec (.read .polyRev) (stateR crc16 0xFFFF .fresh)) = some (.ok, 0x8408) ∧
    answer (exec (.read .checkValue) (stateR crc16 0xFFFF .fresh)) = some (.ok, 0x29B1) ∧
    answer (exec (.read .resultWidth) (stateR crc12 0 .fresh)) = some (.ok, 16) := by decide +kernel

/-- Program P4, steps 6 and 12: BITS_REV in U and in E. -/
theorem test_bitsRev :
    answer (exec (.bitsRev 0x1ABC 13) State.reset) = some (.ok, 0x7AB) ∧
    answer (exec (.bitsRev 0x04C11DB7 32) (stateE .cfgCheck)) = some (.ok, 0xEDB88320) := by decide +kernel

/-- Section 2.10, the column of E and the row of an illegal frame. -/
theorem test_refusals :
    answer (exec (.update 0x31) State.reset) = some (.errState, 0) ∧
    answer (exec (.read .bits) (stateE .cfgCheck)) = some (.errConfig, 2) ∧
    answer (step (presentFrame (.whole [0x06, 0x0D]) (stateE .cfgCheck))) = some (.errIllegal, 0) := by decide +kernel

/-- Section 2.4: table entries of the three shapes. -/
theorem test_tables :
    entry256 crc32 0xCE = 0x7CDCEFB7 ∧ entryLo crc5epc 0xF = 0x60 ∧ entryHi crc5epc 0xF = 0xF8 ∧
    entry16 crc5usb 0xE = 0x1B ∧ entry16 crc5epc 0x7 = 0xB0 := by decide +kernel

/-- Section 2.5: `lut8` in the 16-entry shape, and a partial step in each mode. -/
theorem test_fast :
    lut8 crc32 (buildTables crc32) 0xCE = 0x7CDCEFB7 ∧ lut8 crc5usb (buildTables crc5usb) 0x2E = 0x03 ∧
    fastPartR crc5usb (buildTables crc5usb) 0x1F 0x0 3 = 0x18 ∧
    fastPartD crc16 (buildTables crc16) 0xFFFF 0x1A 5 = 0xAF45 := by decide +kernel

/-- Section 2.1, by the nibble form (S2). -/
theorem test_bitsRevNibble : bitsRevNibble 0x1ABC 13 = 0x7AB ∧ bitsRev 0x0123456789ABCDEF 17 = 0x1EF67 := by decide +kernel

/-- Section 2.7. -/
theorem test_empty_message : crcOf crc12 [] = 0 ∧ crcOf crc5epc [] = 0x09 := by decide +kernel

/-- Section 2.12 and program P6: the check value of the one-bit register. -/
theorem test_one_bit : crcOf crc1 Config.checkString = 1 := by decide +kernel

/-! ### The sample states have the invariant -/

theorem legal_crc5usb : crc5usb.Legal :=
  ⟨by decide, by decide +kernel, by decide +kernel, by decide +kernel, rfl, rfl, rfl, rfl⟩
theorem legal_crc5epc : crc5epc.Legal :=
  ⟨by decide, by decide +kernel, by decide +kernel, by decide +kernel, rfl, rfl, rfl, rfl⟩
theorem legal_crc16 : crc16.Legal :=
  ⟨by decide, by decide +kernel, by decide +kernel, by decide +kernel, rfl, rfl, rfl, rfl⟩
theorem legal_crc12 : crc12.Legal :=
  ⟨by decide, by decide +kernel, by decide +kernel, by decide +kernel, rfl, rfl, rfl, rfl⟩
theorem legal_crc64 : crc64.Legal :=
  ⟨by decide, by decide +kernel, by decide +kernel, by decide +kernel, rfl, rfl, rfl, rfl⟩
theorem legal_crc1 : crc1.Legal :=
  ⟨by decide, by decide +kernel, by decide +kernel, by decide +kernel, rfl, rfl, rfl, rfl⟩

theorem inv_usb : (stateR crc5usb 0x1F .fresh).Inv :=
  ⟨legal_crc5usb, rfl, by decide +kernel, by decide +kernel, fun _ => by decide +kernel⟩
theorem inv_usb_accumulating : (stateR crc5usb 0x1A .accumulating).Inv :=
  ⟨legal_crc5usb, rfl, by decide +kernel, by decide +kernel, fun h => by cases h⟩
theorem inv_crc16 : (stateR crc16 0xFFFF .fresh).Inv :=
  ⟨legal_crc16, rfl, by decide +kernel, by decide +kernel, fun _ => by decide +kernel⟩
theorem inv_crc16_zero : (stateR crc16 0 .accumulating).Inv :=
  ⟨legal_crc16, rfl, by decide +kernel, by decide +kernel, fun h => by cases h⟩
theorem inv_crc12 : (stateR crc12 0 .fresh).Inv :=
  ⟨legal_crc12, rfl, by decide +kernel, by decide +kernel, fun _ => by decide +kernel⟩
theorem inv_crc64 : (stateR crc64 0x123 .accumulating).Inv :=
  ⟨legal_crc64, rfl, by decide +kernel, by decide +kernel, fun h => by cases h⟩

/-! ### Witnesses: for each statement with hypotheses, a state and operands that meet them, at the ends of their ranges -/

/-- A ready block with something sent. -/
def stateRS (es : List HostEvent) : State := { stateR crc5usb 0x1A .accumulating with stream := es }

theorem inv_stateRS (es : List HostEvent) : (stateRS es).Inv := inv_usb_accumulating

/-- Each clause: a reset in R, a reset in U, and a frame in R and in E. -/
theorem witness_ResetIsTheOnlyWayOut :
    (stateRS [.reset]).stream = .reset :: [] ∧
    (∃ t, ({ State.reset with stream := [.reset] } : State).hardwired = none ∧ ({ State.reset with stream := [.reset] } : State).block = .unconfigured ∧
      step { State.reset with stream := [.reset] } = .next t) ∧
    (∃ t, (stateRS [.frame (.whole [0x05])]).block.bstate ≠ 0 ∧ step (stateRS [.frame (.whole [0x05])]) = .next t) ∧
    (∃ t, ({ stateE .cfgBits with stream := [.frame (.whole [0x05])] } : State).block.bstate ≠ 0 ∧
      step { stateE .cfgBits with stream := [.frame (.whole [0x05])] } = .next t) :=
  ⟨rfl, ⟨_, rfl, rfl, rfl⟩, ⟨_, by simp [stateRS, stateR, Block.bstate], rfl⟩, ⟨_, by simp [stateE, Block.bstate], rfl⟩⟩

/-- Section 2.9's empty frame: answered ERR_ILLEGAL, and the block stays. -/
theorem test_empty_frame :
    answer (step (stateRS [.frame (.whole [])])) = some (.errIllegal, 0) ∧
    (after (step (stateRS [.frame (.whole [])]))).block = (stateRS []).block := ⟨rfl, rfl⟩

theorem witness_EmptyFrameIsIllegal :
    (stateRS [.frame (.whole [])]).stream = .frame (.whole []) :: [] ∧ (Frame.whole []).len = 0 := ⟨rfl, rfl⟩

theorem witness_StepRunsTheDecodedCommand :
    (stateRS [.frame (.whole [0x05])]).stream = .frame (.whole [0x05]) :: [] ∧ decode (.whole [0x05]) = .ok .finalize := ⟨rfl, rfl⟩

theorem witness_WrongStateIsRefused :
    (State.reset.block = .unconfigured ∧ (Instr.updateBits 0 64).needsReady = true) ∧
    (stateRS []).block = .ready (readyR crc5usb 0x1A .accumulating) := ⟨⟨rfl, rfl⟩, rfl⟩

theorem witness_ErrorStateRefusesEveryOtherCommand :
    (stateE .cfgCheck).block = .configError .cfgCheck ∧ ∀ v n, Instr.finalize ≠ .bitsRev v n := ⟨rfl, by simp⟩

/-- With a command that is refused, one that is not, and an illegal frame to come. -/
theorem witness_ErrorStateIsAbsorbing :
    ({ stateE .cfgBits with stream := [.frame (encode .finalize), .frame (encode (.bitsRev 0x6 3)), .frame (.whole [0x08])] } : State).block =
      .configError .cfgBits ∧
    NoReset [.frame (encode .finalize), .frame (encode (.bitsRev 0x6 3)), .frame (.whole [0x08])] :=
  ⟨rfl, by simp [NoReset]⟩

theorem witness_ConfigurationNeverChanges :
    (stateRS [.frame (encode .finalize)]).block = .ready (readyR crc5usb 0x1A .accumulating) ∧
    NoReset (stateRS [.frame (encode .finalize)]).stream := ⟨rfl, by simp [NoReset, stateRS]⟩

theorem witness_BstateTransitions : ∃ t, step (stateRS [.reset]) = .next t := ⟨_, rfl⟩

/-- The clauses with premises: CONFIGURE by width and check, the two updates in R with the invariant, an illegal frame. -/
theorem witness_OutcomeOfEveryCommandInEveryState :
    (¬(1 ≤ 0 ∧ 0 ≤ 64) ∧ ¬(1 ≤ 65 ∧ 65 ≤ 64)) ∧
    ((0x19 : Word) = crcOf (makeCfg true true .s16 5 0x05 0x1F 0x1F) Config.checkString ∧
      (0x18 : Word) ≠ crcOf (makeCfg true true .s16 5 0x05 0x1F 0x1F) Config.checkString) ∧
    ((stateRS []).Inv ∧ (64 : Nat) ≤ 64 ∧ (0 : Nat) ≤ 64) ∧
    decode (.whole []) = .error .length := ⟨by decide, by decide +kernel, ⟨inv_stateRS _, by decide⟩, rfl⟩

/-- Two states that differ in the answers already given. -/
theorem witness_AnswersDependOnBlockAndFramesOnly :
    (stateRS [.reset]).block = ({ stateRS [.reset] with responses := [{ status := .ok, data := 5 }] } : State).block ∧
    (stateRS [.reset]).hardwired = ({ stateRS [.reset] with responses := [{ status := .ok, data := 5 }] } : State).hardwired ∧
    (stateRS [.reset]).stream = ({ stateRS [.reset] with responses := [{ status := .ok, data := 5 }] } : State).stream := ⟨rfl, rfl, rfl⟩

theorem witness_EveryStepKeepsInvariant :
    (stateRS [.frame (.whole [0x03, 0x31])]).Inv ∧ ∃ t, step (stateRS [.frame (.whole [0x03, 0x31])]) = .next t :=
  ⟨inv_stateRS _, _, rfl⟩

theorem witness_ReachableStatesHaveInvariant :
    ∃ s : State, s.block = .configError .cfgBits ∧ Reachable s :=
  ⟨_, rfl, .next (.start [.frame (encode (.configure false false false .s256 0 0x07 0 0 0))] none) (t :=
    { stateE .cfgBits with responses := [{ status := .errConfig, data := 1 }] }) (by rfl)⟩

theorem witness_DecodeOfEncode :
    (Instr.configure true false true .s16 255 0xFFFFFFFFFFFFFFFF 0 1 2).wf = true ∧ (Instr.updateBits 1 64).wf = true ∧
    (Instr.bitsRev 1 0).wf = true := by decide

theorem witness_EncodeOfDecode : decode (.whole [0x06, 0x0C]) = .ok (.read .phase) := by rfl

/-- The clause that has hypotheses. -/
theorem witness_IllegalFrameConditions :
    (stateRS [.frame (.whole [0x06, 0x0D])]).stream = .frame (.whole [0x06, 0x0D]) :: [] ∧
    decode (.whole [0x06, 0x0D]) = .error .selector := ⟨rfl, by rfl⟩

theorem witness_BitsRevReversesTheLowBits : (0 : Nat) ≤ 64 ∧ (64 : Nat) ≤ 64 := by decide
theorem witness_BitsRevIgnoresHighBits : (0 : Nat) ≤ 64 ∧ (64 : Nat) ≤ 64 := by decide
theorem witness_NibbleReversalIsReversal : (13 : Nat) ≤ 64 ∧ (64 : Nat) ≤ 64 := by decide
theorem witness_BitsRevLaws : (5 : Nat) ≤ 64 ∧ Fits 0x13 5 ∧ Fits 0x05 5 ∧ Fits 0xFFFFFFFFFFFFFFFF 64 ∧ Fits 1 1 := by decide +kernel

/-- The clause of the illegal frame. -/
theorem witness_BitsRevCommand :
    (64 : Nat) ≤ 64 ∧ 64 < (0x41 : Byte).toNat ∧ (stateRS [.frame (.whole (0x07 :: 0x41 :: bytesOfWord 0))]).stream =
      .frame (.whole (0x07 :: 0x41 :: bytesOfWord 0)) :: [] := ⟨by decide, by decide, rfl⟩

theorem witness_StepKeepsTheWidth :
    (crc5epc.Legal ∧ Fits 0x1F crc5epc.bits) ∧
    (∃ t r, (stateR crc5usb 0x1F .fresh).Inv ∧ exec .finalize (stateR crc5usb 0x1F .fresh) = .next t ∧ t.block = .ready r) ∧
    (crc1.Legal ∧ crc1.bits = 1 ∧ Fits 1 1) :=
  ⟨⟨legal_crc5epc, by decide +kernel⟩, ⟨_, _, inv_usb, rfl, rfl⟩, legal_crc1, rfl, by decide +kernel⟩

theorem witness_MirrorLaw : crc16.Legal ∧ Fits 0x8000 crc16.bits := ⟨legal_crc16, by decide +kernel⟩

/-- Both modes, one bit and eight. -/
theorem witness_CalcByteIsBitSerial :
    (crc5usb.Legal ∧ Fits 0x1F crc5usb.bits ∧ crc5usb.refin = true ∧ (0x01 : Byte).toNat < 2 ^ 1 ∧ (0xFF : Byte).toNat < 2 ^ 8) ∧
    (crc5epc.Legal ∧ Fits 0x09 crc5epc.bits ∧ crc5epc.refin = false ∧ (0x80 : Byte).toNat % 2 ^ (8 - 1) = 0 ∧
      (0xFF : Byte).toNat % 2 ^ (8 - 8) = 0) :=
  ⟨⟨legal_crc5usb, by decide +kernel, rfl, by decide, by decide⟩, legal_crc5epc, by decide +kernel, rfl, by decide, by decide⟩

theorem witness_FoldOfConcatenation : crc5usb.refin = true ∧ crc16.refin = false := ⟨rfl, rfl⟩

theorem witness_FoldIsLinear : [true, false].length = [false, true].length := rfl

/-- The three cases; the two direct ones at `m = bits` and `m = bits + 1`. -/
theorem witness_SeparationOfRegisterAndData :
    (crc5usb.Legal ∧ Fits 0x1F crc5usb.bits ∧ (64 : Nat) ≤ 64 ∧ Fits 0xFFFFFFFFFFFFFFFF 64 ∧ crc5usb.refin = true) ∧
    (crc5epc.Legal ∧ Fits 0x09 crc5epc.bits ∧ crc5epc.refin = false ∧ (5 : Nat) ≤ crc5epc.bits ∧ Fits 0x1F 5) ∧
    (crc5epc.bits < 6 ∧ Fits 0x3F 6) :=
  ⟨⟨legal_crc5usb, by decide +kernel, by decide, by decide +kernel, rfl⟩,
    ⟨legal_crc5epc, by decide +kernel, rfl, by decide, by decide +kernel⟩, by decide, by decide +kernel⟩

/-- Direct; and reflected, the same parameters as CRC-5/USB under shape 0. -/
theorem witness_Table256Entries :
    (crc5epc.Legal ∧ crc5epc.shape = .s256 ∧ crc5epc.refin = false) ∧
    (({ crc5usb with shape := .s256 } : Cfg).Legal ∧ ({ crc5usb with shape := .s256 } : Cfg).refin = true) :=
  ⟨⟨legal_crc5epc, rfl, rfl⟩, ⟨legal_crc5usb.1, legal_crc5usb.2, legal_crc5usb.3, legal_crc5usb.4, legal_crc5usb.5, legal_crc5usb.6,
    legal_crc5usb.7, legal_crc5usb.8⟩, rfl⟩

theorem witness_SplitTableEntries : crc16.Legal ∧ crc16.shape = .s2x16 := ⟨legal_crc16, rfl⟩

theorem witness_NibbleTableEntries :
    (crc5usb.Legal ∧ crc5usb.shape = .s16 ∧ crc5usb.refin = true) ∧ (crc1.Legal ∧ crc1.shape = .s16 ∧ crc1.refin = false) :=
  ⟨⟨legal_crc5usb, rfl, rfl⟩, legal_crc1, rfl, rfl⟩

theorem witness_ShapesGiveOneLut8 : crc64.Legal := legal_crc64
theorem witness_TableEntriesAreInRange : crc1.Legal ∧ crc64.Legal := ⟨legal_crc1, legal_crc64⟩

theorem witness_NibbleStepIsFastByteStep :
    crc5usb.Legal ∧ Fits 0x1F crc5usb.bits ∧ ∃ t, buildTables crc5usb = .t16 t := ⟨legal_crc5usb, by decide +kernel, _, rfl⟩

/-- Both modes, with `r` at 1 and at 7 and `n` at 64. -/
theorem witness_FastRecurrenceIsSlowRecurrence :
    (crc5usb.Legal ∧ Fits 0x1F crc5usb.bits ∧ crc5usb.refin = true) ∧ (crc5epc.Legal ∧ Fits 0x1F crc5epc.bits ∧ crc5epc.refin = false) ∧
    Fits 1 1 ∧ Fits 0x7F 7 :=
  ⟨⟨legal_crc5usb, by decide +kernel, rfl⟩, ⟨legal_crc5epc, by decide +kernel, rfl⟩, by decide +kernel, by decide +kernel⟩

/-- CRC-5/USB under two shapes. -/
theorem witness_ShapeIsUnobservable :
    (stateR crc5usb 0x1F .fresh).block = .ready (readyR crc5usb 0x1F .fresh) ∧
    (stateR { crc5usb with shape := .s2x16 } 0x1F .fresh).block = .ready (readyR { crc5usb with shape := .s2x16 } 0x1F .fresh) ∧
    (readyR crc5usb 0x1F .fresh).Inv ∧ (readyR { crc5usb with shape := .s2x16 } 0x1F .fresh).Inv ∧
    (Instr.read .phase).wf = true ∧ Instr.read .phase ≠ .read .tableShape :=
  ⟨rfl, rfl, inv_usb, ⟨⟨legal_crc5usb.1, legal_crc5usb.2, legal_crc5usb.3, legal_crc5usb.4, legal_crc5usb.5, legal_crc5usb.6,
    legal_crc5usb.7, legal_crc5usb.8⟩, rfl, by decide +kernel, by decide +kernel, fun _ => by decide +kernel⟩, rfl, by decide⟩

/-- Widths 1 and 64, and a right check value. -/
theorem witness_ConfigureEstablishesReady :
    State.reset.block = .unconfigured ∧ (1 : Nat) ≤ 1 ∧ (64 : Nat) ≤ 64 ∧
    (0x19 : Word) = crcOf crc5usb Config.checkString := ⟨rfl, by decide, by decide, by decide +kernel⟩

/-- Widths 0 and 65, and a wrong check value. -/
theorem witness_ConfigurationErrorEntry :
    State.reset.block = .unconfigured ∧ ((0 : Nat) = 0 ∨ 64 < (0 : Nat)) ∧ ((65 : Nat) = 0 ∨ 64 < (65 : Nat)) ∧
    (0x18 : Word) ≠ crcOf (makeCfg true true .s16 5 0x05 0x1F 0x1F) Config.checkString := ⟨rfl, by decide, by decide, by decide +kernel⟩

theorem witness_OverwideOperandsAreDropped :
    (1 : Nat) ≤ 5 ∧ (5 : Nat) ≤ 64 ∧ State.reset.block = .unconfigured ∧ 2 ^ 5 ≤ (0x20 : Word).toNat ∧ (64 : Nat) ≤ 64 ∧
    (stateR crc5usb 0x1F .fresh).Inv := ⟨by decide, by decide, rfl, by decide, by decide, inv_usb⟩

theorem witness_GetEngineMakesFresh :
    (stateR crc5usb 0x1A .accumulating).block = .ready (readyR crc5usb 0x1A .accumulating) ∧
    ((stateR crc5usb 0x1F .fresh).Inv ∧ (readyR crc5usb 0x1F .fresh).phase = .fresh) ∧
    (readyR exampleCfg 0x7C231048 .accumulating).cfg = exampleCfg := ⟨rfl, ⟨inv_usb, rfl⟩, rfl⟩

theorem witness_UpdateFoldsTheByte :
    (stateR crc5usb 0x1A .accumulating).block = .ready (readyR crc5usb 0x1A .accumulating) ∧ (stateR crc5usb 0x1A .accumulating).Inv :=
  ⟨rfl, inv_usb_accumulating⟩

/-- Both modes, `n` at 0 and 64, and the illegal count. -/
theorem witness_UpdateBitsFoldsTheBits :
    ((stateR crc5usb 0x1A .accumulating).block = .ready (readyR crc5usb 0x1A .accumulating) ∧ (stateR crc5usb 0x1A .accumulating).Inv ∧
      crc5usb.refin = true) ∧
    ((stateR crc16 0xFFFF .fresh).block = .ready (readyR crc16 0xFFFF .fresh) ∧ (stateR crc16 0xFFFF .fresh).Inv ∧ crc16.refin = false) ∧
    (0 : Nat) ≤ 64 ∧ (64 : Nat) ≤ 64 ∧ 64 < (0x41 : Byte).toNat :=
  ⟨⟨rfl, inv_usb_accumulating, rfl⟩, ⟨rfl, inv_crc16, rfl⟩, by decide, by decide, by decide⟩

theorem witness_UpdateBitsIsUpdatesOfItsBytes :
    (stateR crc16 0xFFFF .fresh).block = .ready (readyR crc16 0xFFFF .fresh) ∧ (stateR crc16 0xFFFF .fresh).Inv ∧
    (1 : Nat) ≤ 1 ∧ (8 : Nat) ≤ 8 := ⟨rfl, inv_crc16, by decide, by decide⟩

theorem witness_FinalizeAnswersAndResets :
    (stateR crc12 0 .fresh).block = .ready (readyR crc12 0 .fresh) ∧ (stateR crc12 0 .fresh).Inv ∧ (readyR crc12 0 .fresh).phase = .fresh :=
  ⟨rfl, inv_crc12, rfl⟩

theorem witness_ReadAnswersTheSelectedValue :
    (stateR crc64 0x123 .accumulating).block = .ready (readyR crc64 0x123 .accumulating) ∧ 0x0C < (0x0D : Byte).toNat := ⟨rfl, by decide⟩

theorem witness_ResultWidthIsTheSmallestContainer : (1 : Nat) ≤ 1 ∧ (64 : Nat) ≤ 64 := by decide

/-- The reflections agree, and differ. -/
theorem witness_OutputTransform :
    (crc5usb.Legal ∧ Fits 0x1A crc5usb.bits ∧ crc5usb.refin = crc5usb.refout) ∧
    (crc12.Legal ∧ Fits 0xF5B crc12.bits ∧ crc12.refin ≠ crc12.refout) :=
  ⟨⟨legal_crc5usb, by decide +kernel, rfl⟩, legal_crc12, by decide +kernel, by decide⟩

theorem witness_CrcOfTheEmptyMessage :
    (crc12.Legal ∧ crc12.refout = true) ∧ (crc5epc.Legal ∧ crc5epc.refout = false) := ⟨⟨legal_crc12, rfl⟩, legal_crc5epc, rfl⟩

/-- The second clause: zero bytes folded into a zero register, one of them and two. -/
theorem witness_EngineStateMachine :
    ((stateR crc64 0x123 .accumulating).block = .ready (readyR crc64 0x123 .accumulating) ∧ (stateR crc64 0x123 .accumulating).Inv ∧
      (Instr.updateBits 0 64).wf = true) ∧
    ((stateR crc16 0 .accumulating).block = .ready (readyR crc16 0 .accumulating) ∧ (stateR crc16 0 .accumulating).Inv ∧
      [Instr.update 0] ≠ [] ∧ [Instr.update 0, .updateBits 0 8] ≠ [] ∧
      (∀ i ∈ [Instr.update 0] ++ [Instr.update 0, .updateBits 0 8], i.isUpdate = true ∧ i.wf = true) ∧
      foldSeq crc16 0 ([Instr.update 0].map (messageBits crc16.refin)).flatten =
        foldSeq crc16 0 ([Instr.update 0, .updateBits 0 8].map (messageBits crc16.refin)).flatten) :=
  ⟨⟨rfl, inv_crc64, rfl⟩, rfl, inv_crc16_zero, by decide, by decide, by decide, by decide +kernel⟩

/-- An ASCII text with the lowest and the highest code, and its bytes: it meets the premises on texts of two statements. -/
theorem witness_asciiText :
    (∀ c ∈ ['\x00', '1', '\x7F'], c.toNat < 0x80) ∧
    [(0x00 : Byte), 0x31, 0x7F].map BitVec.toNat = ['\x00', '1', '\x7F'].map Char.toNat := ⟨by simp, rfl⟩

theorem witness_PseudoOperationExpansions :
    (∀ c ∈ ['\x00', '1', '\x7F'], c.toNat < 0x80) ∧
    [(0x00 : Byte), 0x31, 0x7F].map BitVec.toNat = ['\x00', '1', '\x7F'].map Char.toNat := witness_asciiText

theorem witness_UpdateBytesFoldsTheBytes :
    ((∀ c ∈ ['\x00', '1', '\x7F'], c.toNat < 0x80) ∧
      [(0x00 : Byte), 0x31, 0x7F].map BitVec.toNat = ['\x00', '1', '\x7F'].map Char.toNat) ∧
    (stateR crc16 0xFFFF .fresh).block = .ready (readyR crc16 0xFFFF .fresh) ∧ (stateR crc16 0xFFFF .fresh).Inv :=
  ⟨witness_asciiText, rfl, inv_crc16⟩

theorem witness_CalcAnswersTheCrc :
    (stateR crc64 0x123 .accumulating).block = .ready (readyR crc64 0x123 .accumulating) ∧ (stateR crc64 0x123 .accumulating).Inv :=
  ⟨rfl, inv_crc64⟩

theorem witness_CalcBitsAnswersTheCrc :
    (stateR crc64 0x123 .accumulating).block = .ready (readyR crc64 0x123 .accumulating) ∧ (stateR crc64 0x123 .accumulating).Inv ∧
    (64 : Nat) ≤ 64 := ⟨rfl, inv_crc64, by decide⟩

theorem exec_configure_reset :
    exec (.configure true true true .s16 5 0x05 0x1F 0x1F 0x19) State.reset =
      .next (configureBlock true true true .s16 5 0x05 0x1F 0x1F 0x19 State.reset) := by
  simp only [exec, execConfigure, whenUnconfigured, State.reset]

/-- The three ways to a Fresh engine. -/
theorem witness_EngineReuseReproducesTheCrc :
    (∃ t r, (stateRS []).Inv ∧ exec .finalize (stateRS []) = .next t ∧ t.block = .ready r) ∧
    (∃ t r, (stateRS []).Inv ∧ exec .getEngine (stateRS []) = .next t ∧ t.block = .ready r) ∧
    (∃ t r, State.reset.Inv ∧ exec (.configure true true true .s16 5 0x05 0x1F 0x1F 0x19) State.reset = .next t ∧ t.block = .ready r ∧
      State.reset.block = .unconfigured) :=
  ⟨⟨_, _, inv_stateRS _, rfl, rfl⟩, ⟨_, _, inv_stateRS _, rfl, rfl⟩,
    ⟨configureBlock true true true .s16 5 0x05 0x1F 0x1F 0x19 State.reset, readyFrom crc5usb, trivial, exec_configure_reset,
      by decide +kernel, rfl⟩⟩

/-- Both kinds of update in one message. -/
theorem witness_BlockSplitting :
    (stateR crc16 0xFFFF .fresh).block = .ready (readyR crc16 0xFFFF .fresh) ∧ (stateR crc16 0xFFFF .fresh).Inv ∧
    (readyR crc16 0xFFFF .fresh).phase = .fresh ∧
    ∀ i ∈ [Instr.update 0x31, .updateBits 0x32333435 32], i.isUpdate = true ∧ i.wf = true := ⟨rfl, inv_crc16, rfl, by decide⟩

/-- Configurations A and B of section 2.11. -/
theorem witness_ReflectionSymmetry :
    (makeCfg true true .s256 16 0x1021 0x1D0F 0x00FF).Legal ∧ (makeCfg false true .s256 16 0x1021 0x1D0F 0x00FF).Legal ∧ (64 : Nat) ≤ 64 ∧
    Fits 0xFFFF 16 :=
  ⟨⟨by decide, by decide +kernel, by decide +kernel, by decide +kernel, rfl, rfl, rfl, rfl⟩,
    ⟨by decide, by decide +kernel, by decide +kernel, by decide +kernel, rfl, rfl, rfl, rfl⟩, by decide, by decide +kernel⟩

/-- CRC-5/USB hard-wired. -/
def wiredUsb : Parameters :=
  { refin := true, refout := true, checkPresent := true, shape := .s16, bits := 5, poly := 0x05, init := 0x1F, xorout := 0x1F, check := 0x19 }

/-- R263: a reset of that block ends in R, from E too; a bad width or a wrong check ends in E. -/
theorem test_hardwired_reset :
    (after (step { stateE .cfgBits with stream := [.reset], hardwired := some wiredUsb })).block = .ready (readyFrom crc5usb) ∧
    (launchState (some { wiredUsb with bits := 0 })).block = .configError .cfgBits ∧
    (launchState (some { wiredUsb with check := 0x18 })).block = .configError .cfgCheck := by decide +kernel

theorem witness_HardwiredConfiguration :
    (wiredUsb.bits < 256 ∧ 1 ≤ wiredUsb.bits ∧ wiredUsb.bits ≤ 64 ∧
      wiredUsb.check = crcOf (makeCfg true true .s16 5 0x05 0x1F 0x1F) Config.checkString) ∧
    ({ stateRS [.reset] with hardwired := some wiredUsb } : State).hardwired = some wiredUsb ∧
    ({ stateRS [.reset] with hardwired := some wiredUsb } : State).stream = .reset :: [] :=
  ⟨by decide +kernel, rfl, rfl⟩

end Sys2Proof.Tests
end

section
/-! SUPPORT. The byte path through the built tables is the slow recurrence (spec/42_table_construction.md R142 to R147;
spec/43_fast_recurrence.md R162, R163, R175): in either mode a table lookup is eight shifts of the index, whatever the shape, and eight shifts of a
register are its untested part moved and the eight shifts of the part that meets the data. -/

namespace Sys2Proof.Machine

/-! ### Bytes and nibbles as words -/

theorem fits_setWidth {n : Nat} (x : BitVec n) : Fits (x.setWidth 64) n :=
  Nat.lt_of_le_of_lt (by simpa using Nat.mod_le _ _) x.isLt

/-- The index of a lookup, read back as a word: the low bits of the register with the data joined. -/
theorem setWidth_low_xor {n : Nat} (hn : n ≤ 64) (w : Word) (x : BitVec n) :
    (w.setWidth n ^^^ x).setWidth 64 = (w ^^^ x.setWidth 64) &&& lowMask n := by
  apply BitVec.eq_of_getLsbD_eq
  intro i hi
  simp only [BitVec.getLsbD_setWidth, BitVec.getLsbD_xor, BitVec.getLsbD_and, getLsbD_lowMask hn]
  by_cases h : i < n
  · simp [h, hi]
  · simp [h, BitVec.getLsbD_of_ge x i (Nat.le_of_not_lt h)]

/-- The same when the register part is no wider than the index. -/
theorem setWidth_top_xor {n : Nat} (hn : n ≤ 64) {w : Word} (hw : Fits w n) (x : BitVec n) :
    (w.setWidth n ^^^ x).setWidth 64 = w ^^^ x.setWidth 64 := by
  rw [setWidth_low_xor hn, (hw.xor (fits_setWidth x)).and_lowMask hn]

theorem Fits.ushiftRight_eq_zero {v : Word} {n k : Nat} (hv : Fits v n) (h : n ≤ k) : v >>> k = 0 :=
  fits_ext ((hv.ushiftRight k).mono (Nat.le_of_eq (Nat.sub_eq_zero_of_le h))) (fits_zero 0) fun _ hi => absurd hi (Nat.not_lt_zero _)

/-- A shift up that loses nothing is undone by the shift down. -/
theorem Fits.shiftLeft_ushiftRight {v : Word} {n k : Nat} (hv : Fits v n) (h : n + k ≤ 64) : v <<< k >>> k = v := by
  apply BitVec.eq_of_getLsbD_eq
  intro i _
  rw [BitVec.getLsbD_ushiftRight, BitVec.getLsbD_shiftLeft]
  by_cases hi : i < n
  · simp [show k + i < 64 by omega]
  · simp [hv.bit (Nat.le_of_not_lt hi)]

theorem wordOfByte_ofNat_byte (b : Byte) : wordOfByte (.ofNat 8 b.toNat) = wordOfByte b := by simp

theorem wordOfByte_ofNat_nibble (i : Nibble) : wordOfByte (.ofNat 8 i.toNat) = i.setWidth 64 := by
  revert i
  decide

theorem wordOfByte_ofNat_highNibble (i : Nibble) : wordOfByte (.ofNat 8 (i.toNat <<< 4)) = i.setWidth 64 <<< 4 := by
  revert i
  decide

/-- A byte is its two nibbles. -/
theorem wordOfByte_nibbles (b : Byte) :
    wordOfByte b = (loNibble b).setWidth 64 ^^^ (hiNibble b).setWidth 64 <<< 4 := by
  apply BitVec.eq_of_getLsbD_eq
  intro i hi
  simp only [BitVec.getLsbD_setWidth, BitVec.getLsbD_xor, BitVec.getLsbD_shiftLeft, BitVec.getLsbD_ushiftRight]
  by_cases h : i < 4
  · simp [h, hi]
  · by_cases h8 : i < 8
    · simp [h, hi, show i - 4 < 4 by omega, show 4 + (i - 4) = i by omega, show i - 4 < 64 by omega]
    · simp [h, show ¬ i - 4 < 4 by omega, BitVec.getLsbD_of_ge b i (Nat.le_of_not_lt h8)]

/-! ### Reflected input -/

/-- The register part of a reflected step stands apart: what no data bit meets is moved down. -/
theorem shiftR_iterate_join (cfg : Cfg) {m : Nat} (hm : m ≤ 64) (x : Word) {d : Word} (hd : Fits d m) :
    (x >>> m) ^^^ (shiftR cfg)^[m] ((x ^^^ d) &&& lowMask m) = (shiftR cfg)^[m] (x ^^^ d) := by
  rw [shiftR_iterate cfg hm (x ^^^ d), BitVec.ushiftRight_xor_distrib, hd.ushiftRight_eq_zero (Nat.le_refl m)]
  simp

theorem align_reflected {cfg : Cfg} (hr : cfg.refin = true) : cfg.align = 0 := by simp [Cfg.align, hr]

theorem calcByte_reflected {cfg : Cfg} (hr : cfg.refin = true) (c : Word) (b : Byte) (n : Nat) :
    calcByte cfg c b n = (shiftR cfg)^[n] (c ^^^ wordOfByte b) := by simp [calcByte, calcByteR, hr]

theorem calcByte_zero_reflected {cfg : Cfg} (hr : cfg.refin = true) (b : Byte) (n : Nat) :
    calcByte cfg 0 b n = (shiftR cfg)^[n] (wordOfByte b) := by simp [calcByte_reflected hr]

/-- A nibble step through the built 16-entry table is four shifts with the nibble joined (R146, R168). -/
theorem nibR_entry16 {cfg : Cfg} (hr : cfg.refin = true) (c : Word) (x : Nibble) :
    nibR (tabulate 16 (entry16 cfg)) c x = (shiftR cfg)^[4] (c ^^^ x.setWidth 64) := by
  rw [nibR, lookup16_tabulate, entry16, if_pos hr, calcByte_zero_reflected hr, wordOfByte_ofNat_nibble,
    setWidth_low_xor (by decide), shiftR_iterate_join cfg (by decide) c (fits_setWidth x)]

/-- Eight shifts of a byte: four of its low nibble, then four with the high nibble joined. -/
theorem shiftR_iterate_nibbles (cfg : Cfg) (y : Byte) :
    (shiftR cfg)^[8] (wordOfByte y) =
      (shiftR cfg)^[4] ((shiftR cfg)^[4] ((loNibble y).setWidth 64) ^^^ (hiNibble y).setWidth 64) := by
  have hhigh : (shiftR cfg)^[4] ((hiNibble y).setWidth 64 <<< 4) = (hiNibble y).setWidth 64 := by
    rw [shiftR_iterate_clear cfg 4 _ fun i hi => by simp [hi], (fits_setWidth _).shiftLeft_ushiftRight (by decide)]
  rw [Function.iterate_add_apply (shiftR cfg) 4 4, wordOfByte_nibbles, iterate_xor (shiftR_xor cfg) 4 (BitVec.setWidth 64 _), hhigh]

/-- `lut8` of the built tables is eight shifts of its index, under every shape (R147). -/
theorem lut8_reflected {cfg : Cfg} (hr : cfg.refin = true) (y : Byte) :
    lut8 cfg (buildTables cfg) y = (shiftR cfg)^[8] (wordOfByte y) := by
  cases hs : cfg.shape with
  | s256 =>
    simp only [buildTables, hs, lut8, lookup256_tabulate, entry256, calcByte_zero_reflected hr, align_reflected hr,
      wordOfByte_ofNat_byte, BitVec.shiftLeft_zero]
  | s2x16 =>
    simp only [buildTables, hs, lut8, lookup16_tabulate, entryLo, entryHi, calcByte_zero_reflected hr, align_reflected hr,
      wordOfByte_ofNat_nibble, wordOfByte_ofNat_highNibble, BitVec.shiftLeft_zero]
    rw [← iterate_xor (shiftR_xor cfg), ← wordOfByte_nibbles]
  | s16 =>
    have hstep : lut8 cfg (buildTables cfg) y =
        nibR (tabulate 16 (entry16 cfg)) (lookup16 (tabulate 16 (entry16 cfg)) (loNibble y)) (hiNibble y) := by
      simp only [buildTables, hs, lut8, if_pos hr, nibR]
    rw [hstep, nibR_entry16 hr, lookup16_tabulate, entry16, if_pos hr, calcByte_zero_reflected hr, wordOfByte_ofNat_nibble,
      shiftR_iterate_nibbles]

theorem fastByte_reflected_eq_foldByte {cfg : Cfg} (hr : cfg.refin = true) {c : Word} (hc : Fits c cfg.bits) (b : Byte) :
    fastByte cfg (buildTables cfg) c b = foldByte cfg c b := by
  have hlut : (c >>> 8) ^^^ lut8 cfg (buildTables cfg) (lowByte c ^^^ b) = foldByte cfg c b := by
    rw [lut8_reflected hr, wordOfByte, setWidth_low_xor (by decide), shiftR_iterate_join cfg (by decide) c (fits_setWidth b),
      foldByte, calcByte_reflected hr]
  rw [fastByte, if_pos hr, fastByteR]
  split
  case isTrue h =>
    rw [hc.ushiftRight_eq_zero h] at hlut
    simpa using hlut
  case isFalse => exact hlut

/-! ### Direct input -/

/-- The register part of a direct step stands apart: what no data bit meets is moved up. -/
theorem Direct.iterate_join {cfg : Cfg} (h : Direct cfg) {m : Nat} (hm : m ≤ cfg.bits) (x d : Word) :
    ((x <<< m) &&& cfg.mask) ^^^ (shiftD cfg)^[m] ((x >>> (cfg.bits - m) ^^^ d) <<< (cfg.bits - m)) =
      (shiftD cfg)^[m] (x ^^^ d <<< (cfg.bits - m)) := by
  rw [BitVec.shiftLeft_xor_distrib, iterate_xor (shiftD_xor cfg), ← BitVec.xor_assoc, ← h.iterate hm,
    iterate_xor (shiftD_xor cfg)]

/-- In a narrow direct configuration the 8-bit working step of R122 is a step of the working form. -/
theorem shiftD8_eq_shiftD_work {cfg : Cfg} (hr : cfg.refin = false) (hn : cfg.bits < 8) :
    shiftD8 (cfg.poly <<< (8 - cfg.bits)) = shiftD cfg.work := by
  have hb : cfg.workBits = 8 := by simp [Cfg.workBits, hr]; omega
  have ha : cfg.align = 8 - cfg.bits := by simp [Cfg.align, hr, hn]
  have hm : lowMask 8 = 0xFF := by decide
  funext c
  simp only [shiftD8, shiftD, Cfg.work, Cfg.workMask, hb, ha, hm]

/-- `calc_byte` of a whole byte is the bit-serial fold, direct input (R123). -/
theorem Direct.calcByte_eq_foldSeq {cfg : Cfg} (h : Direct cfg) {c : Word} (hc : Fits c cfg.bits) (b : Byte) :
    calcByte cfg c b 8 = foldSeq cfg c (bitsDown (wordOfByte b) 8) := by
  have hb := fits_setWidth b
  simp only [calcByte, h.refin, Bool.false_eq_true, if_false, calcByteD]
  split
  case isTrue hn =>
    have hw : cfg.work.bits = 8 := by simp [Cfg.work, Cfg.workBits, h.refin]; omega
    have ha : 8 - cfg.bits = cfg.align := by simp [Cfg.align, h.refin, hn]
    have hfold := h.work.foldSeq_bitsDown 8 h.workBits_ge (c <<< cfg.align) (wordOfByte b) hb
    rw [h.foldSeq_work, hw, Nat.sub_self, BitVec.shiftLeft_zero] at hfold
    rw [calcByteDNarrow, shiftD8_eq_shiftD_work h.refin hn, ha, ← hfold, ofWork_toWork h.work.le h.refin (h.foldSeq_fits hc _)]
  case isFalse hn =>
    rw [calcByteDWide, h.foldSeq_bitsDown 8 (Nat.le_of_not_lt hn) c _ hb]

/-- `calc_byte` of a whole byte in working form is eight shifts of that form. -/
theorem Direct.calcByte_work {cfg : Cfg} (h : Direct cfg) {c : Word} (hc : Fits c cfg.bits) (b : Byte) :
    calcByte cfg c b 8 <<< cfg.align =
      (shiftD cfg.work)^[8] (c <<< cfg.align ^^^ wordOfByte b <<< (cfg.work.bits - 8)) := by
  rw [h.calcByte_eq_foldSeq hc, ← h.foldSeq_work, h.work.foldSeq_bitsDown 8 h.workBits_ge _ _ (fits_setWidth b)]

theorem Direct.calcByte_zero_work {cfg : Cfg} (h : Direct cfg) (b : Byte) :
    calcByte cfg 0 b 8 <<< cfg.align = (shiftD cfg.work)^[8] (wordOfByte b <<< (cfg.work.bits - 8)) := by
  rw [h.calcByte_work (fits_zero _)]
  simp

/-- Of eight shifts of a low nibble the first four only move it. -/
theorem Direct.iterate_nibble {cfg : Cfg} (h : Direct cfg) (hb : 8 ≤ cfg.bits) {x : Word} (hx : Fits x 4) :
    (shiftD cfg)^[8] (x <<< (cfg.bits - 8)) = (shiftD cfg)^[4] (x <<< (cfg.bits - 4)) := by
  rw [Function.iterate_add_apply (shiftD cfg) 4 4, h.iterate_clear 4 _ (by omega) ((hx.shiftLeft _).mono (by omega)),
    ← BitVec.shiftLeft_add, show cfg.bits - 8 + 4 = cfg.bits - 4 by omega]

theorem Direct.entry16_eq_iterate {cfg : Cfg} (h : Direct cfg) (i : Nibble) :
    entry16 cfg i.toNat = (shiftD cfg.work)^[4] (i.setWidth 64 <<< (cfg.work.bits - 4)) := by
  rw [entry16, h.refin, if_neg Bool.false_ne_true, h.calcByte_zero_work, wordOfByte_ofNat_nibble,
    h.work.iterate_nibble h.workBits_ge (fits_setWidth i)]

/-- A nibble step through the built 16-entry table is four shifts with the nibble joined (R146, R168). -/
theorem Direct.nibD_entry16 {cfg : Cfg} (h : Direct cfg) {w : Word} (hw : Fits w cfg.work.bits) (x : Nibble) :
    nibD cfg (tabulate 16 (entry16 cfg)) w x = (shiftD cfg.work)^[4] (w ^^^ x.setWidth 64 <<< (cfg.work.bits - 4)) := by
  have hge := h.workBits_ge
  have htop : Fits (w >>> (cfg.work.bits - 4)) 4 := (hw.ushiftRight _).mono (by omega)
  have hjoin := h.work.iterate_join (show 4 ≤ cfg.work.bits by omega) w (x.setWidth 64)
  rw [← setWidth_top_xor (by decide) htop, ← h.entry16_eq_iterate, ← lookup16_tabulate (entry16 cfg)] at hjoin
  exact hjoin

/-- Eight shifts of a byte at the top of the register: four of its high nibble, then four with the low nibble joined. -/
theorem Direct.iterate_nibbles {cfg : Cfg} (h : Direct cfg) (hb : 8 ≤ cfg.bits) (y : Byte) :
    (shiftD cfg)^[8] (wordOfByte y <<< (cfg.bits - 8)) =
      (shiftD cfg)^[4] ((shiftD cfg)^[4] ((hiNibble y).setWidth 64 <<< (cfg.bits - 4)) ^^^
        (loNibble y).setWidth 64 <<< (cfg.bits - 4)) := by
  rw [wordOfByte_nibbles, BitVec.shiftLeft_xor_distrib, ← BitVec.shiftLeft_add, show 4 + (cfg.bits - 8) = cfg.bits - 4 by omega,
    iterate_xor (shiftD_xor cfg), h.iterate_nibble hb (fits_setWidth _), Function.iterate_add_apply (shiftD cfg) 4 4,
    ← iterate_xor (shiftD_xor cfg), BitVec.xor_comm]

/-- `lut8` of the built tables is eight shifts of its index at the top of the working form, under every shape (R147). -/
theorem Direct.lut8_eq_iterate {cfg : Cfg} (h : Direct cfg) (y : Byte) :
    lut8 cfg (buildTables cfg) y = (shiftD cfg.work)^[8] (wordOfByte y <<< (cfg.work.bits - 8)) := by
  have hge := h.workBits_ge
  cases hs : cfg.shape with
  | s256 =>
    simp only [buildTables, hs, lut8, lookup256_tabulate, entry256, h.calcByte_zero_work, wordOfByte_ofNat_byte]
  | s2x16 =>
    simp only [buildTables, hs, lut8, lookup16_tabulate, entryLo, entryHi, h.calcByte_zero_work,
      wordOfByte_ofNat_nibble, wordOfByte_ofNat_highNibble]
    rw [← iterate_xor (shiftD_xor cfg.work), ← BitVec.shiftLeft_xor_distrib, ← wordOfByte_nibbles]
  | s16 =>
    have hfit : Fits ((shiftD cfg.work)^[4] ((hiNibble y).setWidth 64 <<< (cfg.work.bits - 4))) cfg.work.bits :=
      h.work.iterate_fits (((fits_setWidth _).shiftLeft _).mono (by omega)) 4
    have hstep : lut8 cfg (buildTables cfg) y =
        nibD cfg (tabulate 16 (entry16 cfg)) (lookup16 (tabulate 16 (entry16 cfg)) (hiNibble y)) (loNibble y) := by
      simp only [buildTables, hs, lut8, h.refin, if_neg Bool.false_ne_true, nibD]
    rw [hstep, lookup16_tabulate, h.entry16_eq_iterate, h.nibD_entry16 hfit, h.work.iterate_nibbles hge]

theorem Direct.fastByte_eq_foldByte {cfg : Cfg} (h : Direct cfg) {c : Word} (hc : Fits c cfg.bits) (b : Byte) :
    fastByte cfg (buildTables cfg) c b = foldByte cfg c b := by
  have hge := h.workBits_ge
  have hwork : Fits (c <<< cfg.align) cfg.work.bits := by
    have := hc.shiftLeft cfg.align
    rwa [← workBits_eq h.refin] at this
  have htop : Fits ((c <<< cfg.align) >>> (cfg.work.bits - 8)) 8 := (hwork.ushiftRight _).mono (by omega)
  have hlut : lut8 cfg (buildTables cfg) (lowByte ((c <<< cfg.align) >>> (cfg.work.bits - 8)) ^^^ b) =
      (shiftD cfg.work)^[8] (((c <<< cfg.align) >>> (cfg.work.bits - 8) ^^^ wordOfByte b) <<< (cfg.work.bits - 8)) := by
    rw [h.lut8_eq_iterate, wordOfByte, setWidth_top_xor (by decide) htop]
  have hstep := h.work.iterate_join hge (c <<< cfg.align) (wordOfByte b)
  rw [← hlut, ← h.calcByte_work hc] at hstep
  have hfit : Fits (foldByte cfg c b) cfg.bits := by
    rw [foldByte, h.calcByte_eq_foldSeq hc]
    exact h.foldSeq_fits hc _
  rw [fastByte, h.refin, if_neg Bool.false_ne_true]
  calc fastByteD cfg (buildTables cfg) c b
      = (foldByte cfg c b <<< cfg.align) >>> cfg.align := congrArg cfg.ofWork hstep
    _ = foldByte cfg c b := ofWork_toWork h.work.le h.refin hfit

/-! ### Byte sequences -/

theorem Cfg.Legal.stepBit_fits {cfg : Cfg} (h : cfg.Legal) {c : Word} (hc : Fits c cfg.bits) (d : Bool) :
    Fits (stepBit cfg c d) cfg.bits := by
  cases hr : cfg.refin with
  | true =>
    have hp : Fits cfg.polyrev cfg.bits := by rw [h.polyrev]; exact fits_bitsRev _ h.width.2
    rw [stepBit, if_pos hr, stepR]
    exact ((hc.ushiftRight 1).mono (Nat.sub_le _ _)).xor (hp.gated _)
  | false => exact (h.direct hr).foldSeq_fits hc [d]

theorem Cfg.Legal.foldSeq_fits {cfg : Cfg} (h : cfg.Legal) {c : Word} (hc : Fits c cfg.bits) (ds : List Bool) :
    Fits (foldSeq cfg c ds) cfg.bits := by
  induction ds generalizing c with
  | nil => exact hc
  | cons d ds ih => exact ih (h.stepBit_fits hc d)

/-- A byte is folded bit by bit (R123, R124). -/
theorem Cfg.Legal.foldByte_eq_foldBits {cfg : Cfg} (h : cfg.Legal) {c : Word} (hc : Fits c cfg.bits) (b : Byte) :
    foldByte cfg c b = foldBits cfg c (wordOfByte b) 8 := by
  cases hr : cfg.refin with
  | true => rw [foldByte, calcByte_reflected hr, foldBits, hr, dataBits, if_pos rfl, foldSeq_bitsUp hr _ _ _ (fits_setWidth b)]
  | false => rw [foldByte, (h.direct hr).calcByte_eq_foldSeq hc, foldBits, hr, dataBits, if_neg Bool.false_ne_true]

theorem Cfg.Legal.foldByte_fits {cfg : Cfg} (h : cfg.Legal) {c : Word} (hc : Fits c cfg.bits) (b : Byte) :
    Fits (foldByte cfg c b) cfg.bits := by
  rw [h.foldByte_eq_foldBits hc]
  exact h.foldSeq_fits hc _

theorem Cfg.Legal.fastByte_eq_foldByte {cfg : Cfg} (h : cfg.Legal) {c : Word} (hc : Fits c cfg.bits) (b : Byte) :
    fastByte cfg (buildTables cfg) c b = foldByte cfg c b := by
  cases hr : cfg.refin with
  | true => exact fastByte_reflected_eq_foldByte hr hc b
  | false => exact (h.direct hr).fastByte_eq_foldByte hc b

theorem Cfg.Legal.fastFoldBytes_eq_foldBytes {cfg : Cfg} (h : cfg.Legal) {c : Word} (hc : Fits c cfg.bits) (bs : List Byte) :
    fastFoldBytes cfg (buildTables cfg) c bs = foldBytes cfg c bs := by
  induction bs generalizing c with
  | nil => rfl
  | cons b bs ih => rw [fastFoldBytes_cons, foldBytes_cons, h.fastByte_eq_foldByte hc, ih (h.foldByte_fits hc b)]

theorem Cfg.Legal.initeff_fits {cfg : Cfg} (h : cfg.Legal) : Fits cfg.initeff cfg.bits := by
  rw [h.initeff, initialRegister]
  split
  · exact fits_bitsRev _ h.width.2
  · exact h.init

/-- The self-check's CRC, run on the built tables, is the CRC of the slow recurrence. -/
theorem Cfg.Legal.tableCrcOf_eq_crcOf {cfg : Cfg} (h : cfg.Legal) (bs : List Byte) :
    tableCrcOf cfg (buildTables cfg) bs = crcOf cfg bs := by
  rw [tableCrcOf, crcOf, h.fastFoldBytes_eq_foldBytes h.initeff_fits]

end Sys2Proof.Machine
end

section
/-! SUPPORT. What CONFIGURE commits, and the statements about the state it and reset leave. -/

namespace Sys2Proof.Machine

theorem legalWidth_iff (n : Nat) : legalWidth n = true ↔ 1 ≤ n ∧ n ≤ 64 := by
  rw [legalWidth, Bool.and_eq_true, decide_eq_true_iff, decide_eq_true_iff, Config.maxBits]

/-- The operands cut to a legal width make a legal configuration (R186). -/
theorem makeCfg_legal (ri ro : Bool) (sh : Shape) {n : Nat} (h1 : 1 ≤ n) (h64 : n ≤ 64) (p i x : Word) :
    (makeCfg ri ro sh n p i x).Legal where
  width := ⟨h1, h64⟩
  poly := fits_lowMask h64 p
  init := fits_lowMask h64 i
  xorout := fits_lowMask h64 x
  mask := rfl
  polyrev := rfl
  rtw := rfl
  initeff := rfl

theorem readyFrom_check {cfg : Cfg} (h : cfg.Legal) : (readyFrom cfg).check = crcOf cfg Config.checkString :=
  h.tableCrcOf_eq_crcOf _

/-- What a successful CONFIGURE commits, with CHECK by the slow recurrence. -/
theorem readyFrom_eq {cfg : Cfg} (h : cfg.Legal) :
    readyFrom cfg =
      { cfg, tables := buildTables cfg, check := crcOf cfg Config.checkString, reg := cfg.initeff, phase := .fresh } := by
  rw [← readyFrom_check h, readyFrom]

theorem exec_configure {s : State} (hs : s.block = .unconfigured) (ri ro cp : Bool) (sh : Shape) (n : Nat) (p i x k : Word) :
    exec (.configure ri ro cp sh n p i x k) s = .next (configureBlock ri ro cp sh n p i x k s) :=
  whenUnconfigured_unconfigured hs _

/-- Of CONFIGURE's three ways a legal width excludes the first, a right check value the second. -/
theorem configureBlock_success (ri ro : Bool) {cp : Bool} (sh : Shape) {n : Nat} (h1 : 1 ≤ n) (h64 : n ≤ 64) (p i x : Word) {k : Word}
    (hk : cp = true → k = crcOf (makeCfg ri ro sh n p i x) Config.checkString) (s : State) :
    configureBlock ri ro cp sh n p i x k s = respond .ok 0 (setReady (readyFrom (makeCfg ri ro sh n p i x)) s) := by
  obtain ⟨hw, -⟩ | ⟨-, hcp, hne, -⟩ | ⟨-, -, e⟩ := configureBlock_cases ri ro cp sh n p i x k s
  · rw [(legalWidth_iff n).2 ⟨h1, h64⟩] at hw
    contradiction
  · rw [readyFrom_check (makeCfg_legal ri ro sh h1 h64 p i x)] at hne
    exact absurd (hk hcp) hne
  · exact e

/-- Settles O41: a successful CONFIGURE commits `readyFrom` of the legal configuration its operands make, whose CHECK, computed through the
tables, is the CRC of the slow recurrence. -/
theorem configureEstablishesReady : Obligations.ConfigureEstablishesReady := by
  unfold Obligations.ConfigureEstablishesReady
  intro s refin refout cp shape bits poly init xorout check hs h1 h64 m cfg hcheck
  have hcfg : makeCfg refin refout shape bits poly init xorout = cfg := rfl
  have hlegal : cfg.Legal := makeCfg_legal refin refout shape h1 h64 poly init xorout
  rw [exec_configure hs, configureBlock_success refin refout shape h1 h64 poly init xorout hcheck, hcfg, readyFrom_eq hlegal]
  rfl

/-- Settles O1: reset leaves the constructor of `Block` under which no other element stands. -/
theorem resetLeavesOnlyBstate : Obligations.ResetLeavesOnlyBstate := by
  unfold Obligations.ResetLeavesOnlyBstate
  exact ⟨bstate_unconfigured, rfl, rfl⟩

theorem resultWidth_mem (n : Nat) : resultWidth n ∈ [8, 16, 32, 64] := by
  unfold resultWidth
  split_ifs <;> simp

theorem le_resultWidth {n : Nat} (h64 : n ≤ 64) : n ≤ resultWidth n := by
  unfold resultWidth
  split_ifs <;> assumption

theorem resultWidth_le {n w : Nat} (hw : w ∈ [8, 16, 32, 64]) (h : n ≤ w) : resultWidth n ≤ w := by
  obtain rfl | rfl | rfl | rfl : w = 8 ∨ w = 16 ∨ w = 32 ∨ w = 64 := by simpa using hw
  all_goals
    unfold resultWidth
    split_ifs <;> omega

/-- Settles O50: RTW is one of the four containers, it holds the width, and every container that holds the width is at least RTW. -/
theorem resultWidthIsTheSmallestContainer : Obligations.ResultWidthIsTheSmallestContainer := by
  unfold Obligations.ResultWidthIsTheSmallestContainer
  exact fun bits _ h64 => ⟨resultWidth_mem bits, le_resultWidth h64, fun _ hw h => resultWidth_le hw h⟩

end Sys2Proof.Machine
end

section
/-! SUPPORT. The decoder reads back what the encoder wrote (spec/30_encoding.md R80, R81). -/

namespace Sys2Proof

theorem Laws.FrameForm.statement (i : Instr) : Laws.FrameForm.Statement i := by
  cases i with
  | configure => exact Laws.FrameForm.configure ..
  | getEngine => exact Laws.FrameForm.getEngine
  | update => exact Laws.FrameForm.update ..
  | updateBits => exact Laws.FrameForm.updateBits ..
  | finalize => exact Laws.FrameForm.finalize
  | read => exact Laws.FrameForm.read ..
  | bitsRev => exact Laws.FrameForm.bitsRev ..

theorem encode_len (i : Instr) : (encode i).len = i.opcode.frameBits := (Laws.FrameForm.statement i).1

theorem legalLength_frameBits (o : Opcode) : legalLength o.frameBits = true := by cases o <;> rfl

/-- A frame that begins with its opcode byte and has its opcode's length passes R79 (1) to (3): what is left is its operands. -/
theorem decode_opcode_cons {o : Opcode} {operands : List Byte} (h : (Frame.whole (o.code :: operands)).len = o.frameBits) :
    decode (.whole (o.code :: operands)) = decodeOperands o operands := by
  have hlen : 8 * (operands.length + 1) = o.frameBits := h
  simp [decode, hlen, legalLength_frameBits, Opcode.ofCode_code]

theorem toNat_ofNat_byte {n : Nat} (h : n < 256) : (BitVec.ofNat 8 n).toNat = n := Nat.mod_eq_of_lt h

theorem WellFormed.lt_of_bitsField {n : Nat} (h : WellFormed.bitsField n = true) : n < 256 := of_decide_eq_true h

theorem WellFormed.le_of_count {n : Nat} (h : WellFormed.count n = true) : n ≤ Config.maxCount := of_decide_eq_true h

/-- CONFIGURE's four value fields, cut from the 32 bytes that carry them. -/
theorem wordOfBytes_valueFields (p i x k : Word) :
    let values := bytesOfWord p ++ bytesOfWord i ++ bytesOfWord x ++ bytesOfWord k
    wordOfBytes (values.take 8) = p ∧ wordOfBytes ((values.drop 8).take 8) = i ∧
    wordOfBytes ((values.drop 16).take 8) = x ∧ wordOfBytes (values.drop 24) = k :=
  ⟨wordOfBytes_bytesOfWord p, wordOfBytes_bytesOfWord i, wordOfBytes_bytesOfWord x, wordOfBytes_bytesOfWord k⟩

theorem decodeConfigure_encoded (ri ro cp : Bool) (shape : Shape) {n : Nat} (h : WellFormed.bitsField n = true) (p i x k : Word) :
    decodeConfigure (controlByte ri ro cp shape) (.ofNat 8 n) (bytesOfWord p ++ bytesOfWord i ++ bytesOfWord x ++ bytesOfWord k) =
      .ok (.configure ri ro cp shape n p i x k) := by
  obtain ⟨hreserved, hshape, hri, hro, hcp⟩ := controlByte_fields ri ro cp shape
  obtain ⟨hp, hi, hx, hk⟩ := wordOfBytes_valueFields p i x k
  rw [decodeConfigure, if_neg (not_not_intro hreserved), hshape]
  simp only [hri, hro, hcp, hp, hi, hx, hk, toNat_ofNat_byte (WellFormed.lt_of_bitsField h)]

theorem decodeCounted_encoded (make : Word → Nat → Instr) (v : Word) {n : Nat} (h : WellFormed.count n = true) :
    decodeCounted make (.ofNat 8 n) (bytesOfWord v) = .ok (make v n) := by
  have hn : n ≤ Config.maxCount := WellFormed.le_of_count h
  have hbyte : n < 256 := Nat.lt_of_le_of_lt hn (by decide)
  rw [decodeCounted, toNat_ofNat_byte hbyte, if_neg (Nat.not_lt.2 hn), wordOfBytes_bytesOfWord]

theorem decodeRead_code (sel : Selector) : decodeRead sel.code = .ok (.read sel) := by
  rw [decodeRead, Selector.ofCode_code]

/-- Each format's operand bytes read back as the operands. -/
theorem decodeOperands_operandBytes {i : Instr} (h : i.wf = true) : decodeOperands i.opcode i.operandBytes = .ok i := by
  cases i with
  | configure ri ro cp shape n p q x k => exact decodeConfigure_encoded ri ro cp shape h p q x k
  | getEngine => rfl
  | update b => rfl
  | updateBits v n => exact decodeCounted_encoded .updateBits v h
  | finalize => rfl
  | read sel => exact decodeRead_code sel
  | bitsRev v n => exact decodeCounted_encoded .bitsRev v h

/-- The round trip of R81. -/
theorem decode_encode {i : Instr} (h : i.wf = true) : decode (encode i) = .ok i := by
  rw [encode, decode_opcode_cons (encode_len i), decodeOperands_operandBytes h]

/-- SHP of a CTL byte that the encoder built is its shape's code (R77). -/
theorem controlByte_shape (ri ro cp : Bool) (shape : Shape) : (controlByte ri ro cp shape).extractLsb 4 3 = shape.code :=
  Shape.code_of_ofCode (controlByte_fields ri ro cp shape).2.1

/-- Settles O16: `decode_encode` is the round trip, and CONFIGURE's CTL byte is `controlByte`, whose fields are read back. -/
theorem decodeOfEncode : Obligations.DecodeOfEncode := by
  unfold Obligations.DecodeOfEncode
  refine ⟨fun i h => ⟨decode_encode h, encode_len i⟩, ?_, rfl, rfl, rfl, rfl, rfl, rfl⟩
  intro ri ro cp shape bits poly init xorout check
  obtain ⟨hreserved, -, hri, hro, hcp⟩ := controlByte_fields ri ro cp shape
  exact ⟨controlByte ri ro cp shape, rfl, hri, hro, hcp, controlByte_shape ri ro cp shape, hreserved⟩

end Sys2Proof
end

section
/-! SUPPORT. Bit reversal (spec/40_bit_reversal.md): as a sum, its laws, the source's nibble form, and the command BITS_REV. -/

namespace Sys2Proof.Machine

/-! ### The bits it reads, and its value as a number -/

/-- A reversal depends only on the bits it reads. -/
theorem bitsRev_congr {v w : Word} {n : Nat} (h : ∀ i, i < n → v.getLsbD i = w.getLsbD i) : bitsRev v n = bitsRev w n := by
  induction n with
  | zero => rfl
  | succ n ih => rw [bitsRev, bitsRev, ih fun i hi => h i (Nat.lt_succ_of_lt hi), h n (Nat.lt_succ_self n)]

theorem bitsRev_mask (v : Word) {n : Nat} (hn : n ≤ 64) : bitsRev (v &&& lowMask n) n = bitsRev v n :=
  bitsRev_congr fun i hi => by simp [getLsbD_lowMask hn, hi]

/-- `getLsbD_bitsRev` below the count. -/
theorem getLsbD_bitsRev_of_lt (v : Word) {n j : Nat} (hn : n ≤ 64) (hj : j < n) :
    (bitsRev v n).getLsbD j = v.getLsbD (n - 1 - j) := by
  rw [getLsbD_bitsRev v hn, decide_eq_true hj, Bool.true_and]

/-- A bit joined below a value that leaves room for it. -/
theorem toNat_shiftLeft_or_wordOfBit {v : Word} {n : Nat} (hv : Fits v n) (hn : n < 64) (b : Bool) :
    ((v <<< 1) ||| wordOfBit b).toNat = 2 * v.toNat + b.toNat := by
  have hroom : v.toNat * 2 < 2 ^ 64 := by
    have : 2 ^ n ≤ 2 ^ 63 := Nat.pow_le_pow_right (by decide) (Nat.le_of_lt_succ hn)
    have : v.toNat < 2 ^ n := hv
    omega
  have hbit : (wordOfBit b).toNat = b.toNat := by cases b <;> rfl
  rw [BitVec.toNat_or, BitVec.toNat_shiftLeft, hbit, Nat.shiftLeft_eq, Nat.pow_one, Nat.mod_eq_of_lt hroom, Nat.mul_comm]
  exact (Nat.two_pow_add_eq_or_of_lt (i := 1) b.toNat_lt v.toNat).symm

/-- The sum of R100 over one bit more: each earlier weight is doubled, and the new bit has weight 1. -/
theorem sum_reversedWeights_succ (bit : Nat → Nat) (n : Nat) :
    ((List.range (n + 1)).map fun j => bit j * 2 ^ (n + 1 - 1 - j)).sum =
      2 * ((List.range n).map fun j => bit j * 2 ^ (n - 1 - j)).sum + bit n := by
  have hdouble : ∀ j ∈ List.range n, bit j * 2 ^ (n + 1 - 1 - j) = 2 * (bit j * 2 ^ (n - 1 - j)) := fun j hj => by
    have hj : j < n := List.mem_range.1 hj
    rw [show n + 1 - 1 - j = n - 1 - j + 1 by omega, Nat.pow_succ]
    ac_rfl
  rw [List.range_succ, List.map_append, List.sum_append, List.map_congr_left hdouble, List.sum_map_mul_left]
  simp

theorem toNat_bitsRev (v : Word) {n : Nat} (hn : n ≤ 64) :
    (bitsRev v n).toNat = ((List.range n).map fun j => (v.getLsbD j).toNat * 2 ^ (n - 1 - j)).sum := by
  induction n with
  | zero => rfl
  | succ n ih =>
    have hn' : n ≤ 64 := Nat.le_of_succ_le hn
    rw [bitsRev, toNat_shiftLeft_or_wordOfBit (fits_bitsRev v hn') hn, ih hn', sum_reversedWeights_succ]

/-- Settles O22: bit by bit by `getLsbD_bitsRev_of_lt` and `fits_bitsRev`, as a sum by `toNat_bitsRev`. -/
theorem bitsRevReversesTheLowBits : Obligations.BitsRevReversesTheLowBits := by
  unfold Obligations.BitsRevReversesTheLowBits
  intro value n hn
  exact ⟨fun _ hj => getLsbD_bitsRev_of_lt value hn hj, fun _ hj => (fits_bitsRev value hn).bit hj, toNat_bitsRev value hn⟩

/-- Settles O23: a reversal reads no bit that the mask clears. -/
theorem bitsRevIgnoresHighBits : Obligations.BitsRevIgnoresHighBits := by
  unfold Obligations.BitsRevIgnoresHighBits
  exact fun value _ hn => ⟨(bitsRev_mask value hn).symm, fits_bitsRev value hn⟩

/-! ### The nibble form -/

/-- A reversal in two pieces: the low piece, which is read first, ends on top. -/
theorem bitsRev_add (v : Word) (n m : Nat) : bitsRev v (n + m) = (bitsRev v n <<< m) ||| bitsRev (v >>> n) m := by
  induction m with
  | zero => simp [bitsRev]
  | succ m ih =>
    rw [← Nat.add_assoc, bitsRev, ih, bitsRev, BitVec.shiftLeft_or_distrib, BitVec.shiftLeft_add, BitVec.getLsbD_ushiftRight,
      BitVec.or_assoc]

/-- The bits reversed too many are the lowest ones of the result. -/
theorem bitsRev_add_ushiftRight (v : Word) {n m : Nat} (h : n + m ≤ 64) : bitsRev v (n + m) >>> m = bitsRev v n := by
  have hn : n ≤ 64 := Nat.le_of_add_right_le h
  have hm : m ≤ 64 := Nat.le_of_add_left_le h
  rw [bitsRev_add, BitVec.ushiftRight_or_distrib, (fits_bitsRev v hn).shiftLeft_ushiftRight h,
    (fits_bitsRev (v >>> n) hm).ushiftRight_eq_zero (Nat.le_refl m)]
  exact BitVec.or_zero

/-- The literals of the source's table are the reversals of their indices (R103). -/
theorem rev4_eq_bitsRev (i : Nibble) : rev4 i = bitsRev (i.setWidth 64) 4 := by
  revert i
  decide

theorem rev4_lowNibble (v : Word) : rev4 (lowNibble v) = bitsRev v 4 := by
  rw [rev4_eq_bitsRev]
  refine bitsRev_congr fun i hi => ?_
  simp [hi, show i < 64 by omega]

theorem revNibbles_eq_bitsRev (v : Word) (k : Nat) : revNibbles v k = bitsRev v (4 * k) := by
  induction k with
  | zero => rfl
  | succ k ih => rw [revNibbles, ih, rev4_lowNibble, Nat.mul_succ, bitsRev_add]

theorem bitsRevNibble_eq_bitsRev (v : Word) {n : Nat} (hn : n ≤ 64) : bitsRevNibble v n = bitsRev v n := by
  rw [bitsRevNibble, revNibbles_eq_bitsRev]
  split
  case isTrue h =>
    rw [show 4 * ((n + 3) / 4) = n + (4 - n % 4) by omega, bitsRev_add_ushiftRight v (by omega)]
  case isFalse h => rw [show 4 * ((n + 3) / 4) = n by omega]

/-- Settles O24: the loop is the reversal of whole nibbles (`revNibbles_eq_bitsRev`), and its final shift drops the bits taken too many
(`bitsRev_add_ushiftRight`). -/
theorem nibbleReversalIsReversal : Obligations.NibbleReversalIsReversal := by
  unfold Obligations.NibbleReversalIsReversal
  exact fun value _ hn => bitsRevNibble_eq_bitsRev value hn

/-! ### The laws -/

theorem bitsRev_bitsRev {v : Word} {n : Nat} (hn : n ≤ 64) (hv : Fits v n) : bitsRev (bitsRev v n) n = v :=
  fits_ext (fits_bitsRev _ hn) hv fun i hi => by
    rw [getLsbD_bitsRev_of_lt _ hn hi, getLsbD_bitsRev_of_lt v hn (by omega), show n - 1 - (n - 1 - i) = i by omega]

theorem bitsRev_xor (v w : Word) {n : Nat} (hn : n ≤ 64) : bitsRev (v ^^^ w) n = bitsRev v n ^^^ bitsRev w n :=
  fits_ext (fits_bitsRev _ hn) ((fits_bitsRev v hn).xor (fits_bitsRev w hn)) fun i hi => by
    simp only [BitVec.getLsbD_xor, getLsbD_bitsRev_of_lt _ hn hi]

theorem bitsRev_one (v : Word) : bitsRev v 1 = v &&& lowMask 1 :=
  fits_ext (fits_bitsRev v (by decide)) (fits_lowMask (by decide) v) fun i hi => by
    rw [getLsbD_bitsRev_of_lt v (by decide) hi, BitVec.getLsbD_and, getLsbD_lowMask (by decide), decide_eq_true hi, Bool.and_true,
      show 1 - 1 - i = i by omega]

/-- Reversal turns a shift up into a shift down. -/
theorem bitsRev_shiftLeft_one (v : Word) {n : Nat} (hn : n ≤ 64) : bitsRev (v <<< 1) n = bitsRev v n >>> 1 :=
  fits_ext (fits_bitsRev _ hn) (((fits_bitsRev v hn).ushiftRight 1).mono (Nat.sub_le n 1)) fun i hi => by
    rw [BitVec.getLsbD_ushiftRight, getLsbD_bitsRev _ hn, getLsbD_bitsRev v hn, BitVec.getLsbD_shiftLeft,
      show n - 1 - (1 + i) = n - 1 - i - 1 by omega]
    by_cases hlast : 1 + i < n
    · simp [hi, hlast, show n - 1 - i < 64 by omega, show n - 1 - i ≠ 0 by omega]
    · simp [hlast, show n - 1 - i = 0 by omega]

theorem getLsbD_zero_bitsRev (v : Word) {n : Nat} (hn : n ≤ 64) (h : 1 ≤ n) : (bitsRev v n).getLsbD 0 = v.getLsbD (n - 1) :=
  getLsbD_bitsRev_of_lt v hn h

theorem bitsRev_injective {v w : Word} {n : Nat} (hn : n ≤ 64) (hv : Fits v n) (hw : Fits w n) (h : bitsRev v n = bitsRev w n) :
    v = w := by
  rw [← bitsRev_bitsRev hn hv, h, bitsRev_bitsRev hn hw]

theorem bitsRev_zero (n : Nat) : bitsRev 0 n = 0 := by
  induction n with
  | zero => rfl
  | succ n ih =>
    rw [bitsRev, ih]
    simp [wordOfBit]

theorem fits_lowMask_self {n : Nat} (hn : n ≤ 64) : Fits (lowMask n) n := fits_iff.2 fun i hi => by
  simp [getLsbD_lowMask hn, hi]

theorem bitsRev_lowMask {n : Nat} (hn : n ≤ 64) : bitsRev (lowMask n) n = lowMask n :=
  fits_ext (fits_bitsRev _ hn) (fits_lowMask_self hn) fun i hi => by
    rw [getLsbD_bitsRev_of_lt _ hn hi, getLsbD_lowMask hn, getLsbD_lowMask hn, decide_eq_true hi, decide_eq_true (by omega)]

/-- Settles O25: the laws of R105; reversal is its own inverse, which makes it one to one and onto. -/
theorem bitsRevLaws : Obligations.BitsRevLaws := by
  unfold Obligations.BitsRevLaws
  intro a b n hn ha hb
  refine ⟨bitsRev_bitsRev hn ha, bitsRev_xor a b hn, ?identity, ?shift, getLsbD_zero_bitsRev a hn, bitsRev_injective hn ha hb,
    ⟨bitsRev a n, fits_bitsRev a hn, bitsRev_bitsRev hn ha⟩, bitsRev_zero n, bitsRev_lowMask hn⟩
  case identity =>
    rintro rfl
    rw [bitsRev_one, ha.and_lowMask hn]
  case shift => rw [bitsRev_mask _ hn, bitsRev_shiftLeft_one a hn]

/-! ### The command -/

/-- A count above 64 makes the frame of BITS_REV illegal, whatever its value (R79). -/
theorem decode_bitsRev_count {n : Byte} (hn : 64 < n.toNat) (v : Word) :
    decode (.whole (0x07 :: n :: bytesOfWord v)) = .error .count := by
  have hcount : n.toNat > Config.maxCount := hn
  calc decode (.whole (Opcode.bitsRev.code :: n :: bytesOfWord v))
    _ = decodeOperands .bitsRev (n :: bytesOfWord v) := decode_opcode_cons rfl
    _ = decodeCounted .bitsRev n (bytesOfWord v) := rfl
    _ = .error .count := by rw [decodeCounted, if_pos hcount]

/-- Settles O26: a legal count is answered by one response with the reversed value in every block state; a larger one does not decode. -/
theorem bitsRevCommand : Obligations.BitsRevCommand := by
  unfold Obligations.BitsRevCommand
  refine ⟨fun _ _ _ _ => rfl, fun _ _ _ => rfl, fun v => ⟨rfl, bitsRev_one v, fun _ hj => getLsbD_bitsRev_of_lt v (Nat.le_refl 64) hj⟩,
    fun v _ hn => (bitsRev_mask v hn).symm, by decide, by decide, fun s es n v hn hs => ?illegal⟩
  case illegal =>
    rw [step_illegal hs (decode_bitsRev_count hn v)]
    rfl

end Sys2Proof.Machine
end

section
/-! SUPPORT. The slow recurrence (spec/41_slow_recurrence.md): linear in register and data (R128), its register part apart from its data (R129), the same
in either mode but for the order of the bits (R119), and the loop of `calc_byte` (R123). -/

namespace Sys2Proof.Machine

/-! ### Linearity (R128) -/

theorem stepBit_xor (cfg : Cfg) (c₁ c₂ : Word) (d₁ d₂ : Bool) :
    stepBit cfg (c₁ ^^^ c₂) (d₁ ^^ d₂) = stepBit cfg c₁ d₁ ^^^ stepBit cfg c₂ d₂ := by
  rw [stepBit, stepBit, stepBit]
  split
  case isTrue =>
    simp only [stepR, BitVec.ushiftRight_xor_distrib, BitVec.getLsbD_xor, gated_xor]
    ac_rfl
  case isFalse =>
    simp only [stepD, BitVec.shiftLeft_xor_distrib, xor_and_distrib, BitVec.getLsbD_xor, gated_xor]
    ac_rfl

theorem foldSeq_xor (cfg : Cfg) (c₁ c₂ : Word) {s₁ s₂ : List Bool} (h : s₁.length = s₂.length) :
    foldSeq cfg (c₁ ^^^ c₂) (List.zipWith (· ^^ ·) s₁ s₂) = foldSeq cfg c₁ s₁ ^^^ foldSeq cfg c₂ s₂ := by
  induction s₁ generalizing c₁ c₂ s₂ with
  | nil =>
    obtain rfl := List.length_eq_zero_iff.1 h.symm
    rfl
  | cons d₁ s₁ ih =>
    obtain ⟨d₂, s₂, rfl⟩ := List.exists_cons_of_length_eq_add_one h.symm
    rw [List.zipWith_cons_cons, foldSeq_cons, foldSeq_cons, foldSeq_cons, stepBit_xor, ih _ _ (Nat.succ.inj h)]

/-- Each of the three loops of `calc_byte` (R120 to R122) is linear, and the data is joined to the register by XOR. -/
theorem calcByte_xor (cfg : Cfg) (c₁ c₂ : Word) (b₁ b₂ : Byte) (n : Nat) :
    calcByte cfg (c₁ ^^^ c₂) (b₁ ^^^ b₂) n = calcByte cfg c₁ b₁ n ^^^ calcByte cfg c₂ b₂ n := by
  have hjoin (x₁ x₂ y₁ y₂ : Word) : (x₁ ^^^ x₂) ^^^ (y₁ ^^^ y₂) = (x₁ ^^^ y₁) ^^^ (x₂ ^^^ y₂) := by ac_rfl
  simp only [calcByte, calcByteD]
  split_ifs
  case pos => simp only [calcByteR, wordOfByte, BitVec.setWidth_xor, hjoin, iterate_xor (shiftR_xor cfg)]
  case pos =>
    simp only [calcByteDNarrow, wordOfByte, BitVec.setWidth_xor, BitVec.shiftLeft_xor_distrib, hjoin, iterate_xor (shiftD8_xor _),
      BitVec.ushiftRight_xor_distrib]
  case neg =>
    simp only [calcByteDWide, wordOfByte, BitVec.setWidth_xor, BitVec.shiftLeft_xor_distrib, hjoin, iterate_xor (shiftD_xor cfg)]

theorem foldByte_eq_xor (cfg : Cfg) (c : Word) (b : Byte) : foldByte cfg c b = foldByte cfg c 0 ^^^ foldByte cfg 0 b := by
  simpa [foldByte] using calcByte_xor cfg c 0 0 b 8

/-- Settles O31: a step is linear; a sequence by induction on it, a byte by `calcByte_xor`. -/
theorem foldIsLinear : Obligations.FoldIsLinear := by
  unfold Obligations.FoldIsLinear
  exact fun cfg c₁ c₂ => ⟨stepBit_xor cfg c₁ c₂, fun _ _ => foldSeq_xor cfg c₁ c₂, foldByte_eq_xor cfg c₁⟩

/-! ### Separation of register and data (R129) -/

theorem foldBits_reflected {cfg : Cfg} (hr : cfg.refin = true) (c v : Word) (n : Nat) :
    foldBits cfg c v n = foldSeq cfg c (bitsUp v n) := by rw [foldBits, dataBits, if_pos hr]

theorem foldBits_direct {cfg : Cfg} (hr : cfg.refin = false) (c v : Word) (n : Nat) :
    foldBits cfg c v n = foldSeq cfg c (bitsDown v n) := by rw [foldBits, dataBits, hr, if_neg Bool.false_ne_true]

theorem foldSeq_zero_bitsUp {cfg : Cfg} (hr : cfg.refin = true) {d : Word} {m : Nat} (hd : Fits d m) :
    foldSeq cfg 0 (bitsUp d m) = (shiftR cfg)^[m] d := by simpa using foldSeq_bitsUp hr m 0 d hd

theorem Direct.foldSeq_zero_bitsDown {cfg : Cfg} (h : Direct cfg) {d : Word} {m : Nat} (hm : m ≤ cfg.bits) (hd : Fits d m) :
    foldSeq cfg 0 (bitsDown d m) = (shiftD cfg)^[m] (d <<< (cfg.bits - m)) := by simpa using h.foldSeq_bitsDown m hm 0 d hd

theorem foldBits_separate_reflected {cfg : Cfg} (hr : cfg.refin = true) (c : Word) {d : Word} {m : Nat} (hm : m ≤ 64)
    (hd : Fits d m) : foldBits cfg c d m = (c >>> m) ^^^ foldBits cfg 0 ((c ^^^ d) &&& lowMask m) m := by
  rw [foldBits_reflected hr, foldBits_reflected hr, foldSeq_bitsUp hr m c d hd, foldSeq_zero_bitsUp hr (fits_lowMask hm _),
    shiftR_iterate_join cfg hm c hd]

theorem Direct.foldBits_separate {cfg : Cfg} (h : Direct cfg) {c d : Word} {m : Nat} (hm : m ≤ cfg.bits) (hc : Fits c cfg.bits)
    (hd : Fits d m) :
    foldBits cfg c d m = ((c <<< m) &&& cfg.mask) ^^^ foldBits cfg 0 (((c >>> (cfg.bits - m)) ^^^ d) &&& lowMask m) m := by
  have hjoined : Fits ((c >>> (cfg.bits - m)) ^^^ d) m := ((hc.ushiftRight _).mono (by omega)).xor hd
  rw [foldBits_direct h.refin, foldBits_direct h.refin, hjoined.and_lowMask (Nat.le_trans hm h.le), h.foldSeq_bitsDown m hm c d hd,
    h.foldSeq_zero_bitsDown hm hjoined, h.iterate_join hm]

/-- As many data bits as the register has meet all of it. -/
theorem Direct.foldSeq_whole_register {cfg : Cfg} (h : Direct cfg) {c d : Word} (hc : Fits c cfg.bits) (hd : Fits d cfg.bits) :
    foldSeq cfg c (bitsDown d cfg.bits) = foldSeq cfg 0 (bitsDown (c ^^^ d) cfg.bits) := by
  rw [h.foldSeq_bitsDown _ (Nat.le_refl _) c d hd, h.foldSeq_zero_bitsDown (Nat.le_refl _) (hc.xor hd), Nat.sub_self,
    BitVec.shiftLeft_zero, BitVec.shiftLeft_zero]

/-- The first BITS data bits meet the whole register; the bits after them are as they were. -/
theorem Direct.foldBits_separate_long {cfg : Cfg} (h : Direct cfg) {c d : Word} {m : Nat} (hm : m ≤ 64) (hlong : cfg.bits < m)
    (hc : Fits c cfg.bits) (hd : Fits d m) : foldBits cfg c d m = foldBits cfg 0 ((c <<< (m - cfg.bits)) ^^^ d) m := by
  obtain ⟨k, rfl⟩ : ∃ k, m = cfg.bits + k := ⟨m - cfg.bits, by omega⟩
  have hfirst : ((c <<< k) ^^^ d) >>> k = c ^^^ d >>> k := by
    rw [BitVec.ushiftRight_xor_distrib, hc.shiftLeft_ushiftRight hm]
  have hrest : bitsDown ((c <<< k) ^^^ d) k = bitsDown d k := bitsDown_congr fun i hi => by simp [hi]
  have hdata : Fits (d >>> k) cfg.bits := by simpa using hd.ushiftRight k
  rw [Nat.add_sub_cancel_left, foldBits_direct h.refin, foldBits_direct h.refin, bitsDown_add, bitsDown_add, foldSeq_append,
    foldSeq_append, hfirst, hrest, h.foldSeq_whole_register hc hdata]

/-- Settles O32: one lemma for each of the three cases of R129. -/
theorem separationOfRegisterAndData : Obligations.SeparationOfRegisterAndData := by
  unfold Obligations.SeparationOfRegisterAndData
  intro cfg c d m hlegal hc hm hd
  exact ⟨fun hr => foldBits_separate_reflected hr c hm hd,
    fun hr hle => (hlegal.direct hr).foldBits_separate hle hc hd,
    fun hr hlong => (hlegal.direct hr).foldBits_separate_long hm hlong hc hd⟩

/-! ### The mirror law (R119) -/

theorem bitsRev_gated (t : Bool) (v : Word) (n : Nat) : bitsRev (gated t v) n = gated t (bitsRev v n) := by
  cases t
  · exact bitsRev_zero n
  · rfl

/-- Reversal turns the shift up into the shift down, the tested top bit into bit 0, and POLY into POLYREV. -/
theorem Cfg.Legal.stepR_bitsRev {cfg : Cfg} (h : cfg.Legal) (c : Word) (d : Bool) :
    stepR cfg (bitsRev c cfg.bits) d = bitsRev (stepD cfg c d) cfg.bits := by
  obtain ⟨hpos, hle⟩ := h.width
  rw [stepR, stepD, bitsRev_xor _ _ hle, h.mask, bitsRev_mask _ hle, bitsRev_shiftLeft_one c hle, bitsRev_gated,
    getLsbD_zero_bitsRev c hle hpos, h.polyrev]

theorem Cfg.Legal.foldl_stepR_bitsRev {cfg : Cfg} (h : cfg.Legal) (c : Word) (ds : List Bool) :
    ds.foldl (stepR cfg) (bitsRev c cfg.bits) = bitsRev (ds.foldl (stepD cfg) c) cfg.bits := by
  induction ds generalizing c with
  | nil => rfl
  | cons d ds ih => rw [List.foldl_cons, List.foldl_cons, h.stepR_bitsRev, ih]

/-- Settles O28: the step by `stepR_bitsRev`, a sequence by induction on it. -/
theorem mirrorLaw : Obligations.MirrorLaw := by
  unfold Obligations.MirrorLaw
  exact fun cfg c hlegal _ => ⟨hlegal.stepR_bitsRev c, hlegal.foldl_stepR_bitsRev c⟩

/-! ### The loop of `calc_byte` (R123) -/

/-- Data that starts at bit 0 is folded upward, when reflected. -/
theorem calcByte_reflected_eq_foldSeq {cfg : Cfg} (hr : cfg.refin = true) (c : Word) {inp : Byte} {n : Nat}
    (hinp : Fits (wordOfByte inp) n) : calcByte cfg c inp n = foldSeq cfg c (bitsUp (wordOfByte inp) n) := by
  rw [calcByte_reflected hr, foldSeq_bitsUp hr n c _ hinp]

/-- Data at the top of the byte is folded downward, when direct; a narrow register is left-aligned in its 8 bits (R122). -/
theorem Direct.calcByte_eq_foldSeq_top {cfg : Cfg} (h : Direct cfg) {c : Word} (hc : Fits c cfg.bits) {inp : Byte} {d : Word} {n : Nat}
    (hn : n ≤ 8) (hd : Fits d n) (hinp : wordOfByte inp = d <<< (8 - n)) :
    calcByte cfg c inp n = foldSeq cfg c (bitsDown d n) := by
  simp only [calcByte, h.refin, Bool.false_eq_true, if_false, calcByteD]
  split
  case isTrue hnarrow =>
    have hw : cfg.work.bits = 8 := by simp [Cfg.work, Cfg.workBits, h.refin]; omega
    have ha : 8 - cfg.bits = cfg.align := by simp [Cfg.align, h.refin, hnarrow]
    have hfold := h.work.foldSeq_bitsDown n (hw ▸ hn) (c <<< cfg.align) d hd
    rw [h.foldSeq_work, hw, ← hinp] at hfold
    rw [calcByteDNarrow, shiftD8_eq_shiftD_work h.refin hnarrow, ha, ← hfold,
      ofWork_toWork h.work.le h.refin (h.foldSeq_fits hc _)]
  case isFalse hwide =>
    rw [calcByteDWide, h.foldSeq_bitsDown n (by omega) c d hd, hinp, ← BitVec.shiftLeft_add,
      show 8 - n + (cfg.bits - 8) = cfg.bits - n by omega]

/-- A byte with nothing below its top bits is those bits moved up. -/
theorem wordOfByte_eq_top {inp : Byte} {k : Nat} (h : inp.toNat % 2 ^ k = 0) :
    wordOfByte inp = wordOfByte inp >>> k <<< k := by
  apply BitVec.eq_of_getLsbD_eq
  intro i hi
  have hlow (hik : i < k) : inp.getLsbD i = false := by
    simpa [h, hik, BitVec.getLsbD] using (Nat.testBit_mod_two_pow inp.toNat k i).symm
  rw [BitVec.getLsbD_shiftLeft, BitVec.getLsbD_ushiftRight]
  by_cases hik : i < k
  · simp [hik, hlow hik]
  · simp [hik, hi, show k + (i - k) = i by omega]

theorem bitsUp_wordOfByte (inp : Byte) {n : Nat} (hn : n ≤ 8) :
    bitsUp (wordOfByte inp) n = (List.range n).map fun i => inp.getLsbD i :=
  List.map_congr_left fun i hi => by
    have := List.mem_range.1 hi
    simp [show i < 64 by omega]

theorem bitsDown_wordOfByte_top (inp : Byte) {n : Nat} (hn : n ≤ 8) :
    bitsDown (wordOfByte inp >>> (8 - n)) n = (List.range n).map fun i => inp.getLsbD (7 - i) :=
  List.map_congr_left fun i hi => by
    have := List.mem_range.1 hi
    simp [show 8 - n + (n - 1 - i) = 7 - i by omega, show 7 - i < 64 by omega]

/-- Settles O29: `calc_byte` selects its mode's loop, and the loop is the fold by one lemma for each mode. -/
theorem calcByteIsBitSerial : Obligations.CalcByteIsBitSerial := by
  unfold Obligations.CalcByteIsBitSerial
  intro cfg c inp n hlegal hc _ hn
  refine ⟨fun hr => if_pos hr, fun hr => by rw [calcByte, hr, if_neg Bool.false_ne_true], ?reflected, ?direct⟩
  case reflected =>
    intro hr hinp
    have hfit : Fits (wordOfByte inp) n := by rwa [Fits, BitVec.toNat_setWidth_of_le (by decide)]
    rw [calcByte_reflected_eq_foldSeq hr c hfit, bitsUp_wordOfByte inp hn]
  case direct =>
    intro hr hinp
    have hfit : Fits (wordOfByte inp >>> (8 - n)) n := ((fits_setWidth inp).ushiftRight _).mono (by omega)
    rw [(hlegal.direct hr).calcByte_eq_foldSeq_top hc hn hfit (wordOfByte_eq_top hinp), bitsDown_wordOfByte_top inp hn]

end Sys2Proof.Machine
end

section
/-! SUPPORT. Part of a byte and bit strings through the built tables (spec/43_fast_recurrence.md R164, R165, R167), so that UPDATE_BITS, like UPDATE, folds
by the slow recurrence; the invariant after every command; and the width of REG (spec/41_slow_recurrence.md R118). -/

namespace Sys2Proof.Machine

/-! ### Part of a byte -/

theorem wordOfByte_lowByte {w : Word} (hw : Fits w 8) : wordOfByte (lowByte w) = w := by
  simpa using setWidth_top_xor (by decide) hw 0

/-- Of eight shifts of a value at the top of a byte the first ones only move it down. -/
theorem shiftR_iterate_top (cfg : Cfg) {x : Word} {r : Nat} (hr : r ≤ 8) (hx : Fits x r) :
    (shiftR cfg)^[8] (x <<< (8 - r)) = (shiftR cfg)^[r] x := by
  rw [show 8 = r + (8 - r) by omega, Function.iterate_add_apply, Nat.add_sub_cancel_left,
    shiftR_iterate_clear cfg (8 - r) _ fun i hi => by simp [hi], hx.shiftLeft_ushiftRight (by omega)]

/-- Of eight shifts of a value with nothing in the top of its byte the first ones only move it up. -/
theorem Direct.iterate_low {cfg : Cfg} (h : Direct cfg) (hb : 8 ≤ cfg.bits) {x : Word} {r : Nat} (hr : r ≤ 8) (hx : Fits x r) :
    (shiftD cfg)^[8] (x <<< (cfg.bits - 8)) = (shiftD cfg)^[r] (x <<< (cfg.bits - r)) := by
  rw [show (shiftD cfg)^[8] = (shiftD cfg)^[r + (8 - r)] by rw [Nat.add_sub_cancel' hr], Function.iterate_add_apply,
    h.iterate_clear (8 - r) _ (by omega) ((hx.shiftLeft _).mono (by omega)), ← BitVec.shiftLeft_add,
    show cfg.bits - 8 + (8 - r) = cfg.bits - r by omega]

theorem fastPartR_eq_foldBits {cfg : Cfg} (href : cfg.refin = true) (c : Word) {d : Word} {r : Nat} (hr : r ≤ 8) (hd : Fits d r) :
    fastPartR cfg (buildTables cfg) c d r = foldBits cfg c d r := by
  have hx : Fits ((c ^^^ d) &&& lowMask r) r := fits_lowMask (by omega) _
  have hindex : Fits (((c ^^^ d) &&& lowMask r) <<< (8 - r)) 8 := (hx.shiftLeft _).mono (by omega)
  rw [fastPartR, lut8_reflected href, wordOfByte_lowByte hindex, shiftR_iterate_top cfg hr hx,
    shiftR_iterate_join cfg (by omega) c hd, foldBits_reflected href, foldSeq_bitsUp href r c d hd]

theorem Direct.fastPartD_eq_foldBits {cfg : Cfg} (h : Direct cfg) {c d : Word} (hc : Fits c cfg.bits) {r : Nat} (hr : r ≤ 8)
    (hd : Fits d r) : fastPartD cfg (buildTables cfg) c d r = foldBits cfg c d r := by
  have hge := h.workBits_ge
  have hrw : r ≤ cfg.work.bits := Nat.le_trans hr hge
  have hwork : Fits (c <<< cfg.align) cfg.work.bits := (hc.shiftLeft _).mono (Nat.le_of_eq (workBits_eq h.refin).symm)
  have hx : Fits ((c <<< cfg.align) >>> (cfg.work.bits - r) ^^^ d) r := ((hwork.ushiftRight _).mono (by omega)).xor hd
  have hlut : lut8 cfg (buildTables cfg) (lowByte (((c <<< cfg.align) >>> (cfg.work.bits - r) ^^^ d) &&& lowMask r)) =
      (shiftD cfg.work)^[r] (((c <<< cfg.align) >>> (cfg.work.bits - r) ^^^ d) <<< (cfg.work.bits - r)) := by
    rw [hx.and_lowMask (by omega), h.lut8_eq_iterate, wordOfByte_lowByte (hx.mono hr), h.work.iterate_low hge hr hx]
  have hstep := h.work.iterate_join hrw (c <<< cfg.align) d
  rw [← hlut, ← h.work.foldSeq_bitsDown r hrw _ d hd, h.foldSeq_work, ← foldBits_direct h.refin] at hstep
  have hfit : Fits (foldBits cfg c d r) cfg.bits := h.foldSeq_fits hc _
  calc fastPartD cfg (buildTables cfg) c d r
      = (foldBits cfg c d r <<< cfg.align) >>> cfg.align := congrArg cfg.ofWork hstep
    _ = foldBits cfg c d r := ofWork_toWork h.work.le h.refin hfit

/-! ### Bit strings -/

theorem fastFoldBytes_reflected {cfg : Cfg} (hr : cfg.refin = true) (t : Tables) (c : Word) (bs : List Byte) :
    bs.foldl (fastByteR cfg t) c = fastFoldBytes cfg t c bs := by
  have : fastByteR cfg t = fastByte cfg t := funext₂ fun c b => by rw [fastByte, if_pos hr]
  rw [this, fastFoldBytes]

theorem fastFoldBytes_direct {cfg : Cfg} (hr : cfg.refin = false) (t : Tables) (c : Word) (bs : List Byte) :
    bs.foldl (fastByteD cfg t) c = fastFoldBytes cfg t c bs := by
  have : fastByteD cfg t = fastByte cfg t := funext₂ fun c b => by rw [fastByte, hr, if_neg Bool.false_ne_true]
  rw [this, fastFoldBytes]

theorem bitsUp_lowByte (w : Word) : bitsUp (wordOfByte (lowByte w)) 8 = bitsUp w 8 :=
  bitsUp_congr fun i hi => by simp [hi, show i < 64 by omega]

theorem bitsDown_lowByte (w : Word) : bitsDown (wordOfByte (lowByte w)) 8 = bitsDown w 8 :=
  bitsDown_congr fun i hi => by simp [hi, show i < 64 by omega]

/-- The whole bytes of a bit string, one after the other, are its bits. -/
theorem Cfg.Legal.foldBytes_wholeBytesUp {cfg : Cfg} (h : cfg.Legal) (hr : cfg.refin = true) {c : Word} (hc : Fits c cfg.bits)
    (u : Word) (q : Nat) : foldBytes cfg c (wholeBytesUp u q) = foldBits cfg c u (8 * q) := by
  induction q generalizing c u with
  | zero => simp [wholeBytesUp, foldBits_reflected hr]
  | succ q ih =>
    have hhead : wholeBytesUp u (q + 1) = lowByte u :: wholeBytesUp (u >>> 8) q := by
      simp [wholeBytesUp, List.range_succ_eq_map, BitVec.shiftRight_add, Nat.mul_succ, Nat.add_comm]
    rw [hhead, foldBytes_cons, ih (h.foldByte_fits hc _), h.foldByte_eq_foldBits hc, foldBits_reflected hr, foldBits_reflected hr,
      foldBits_reflected hr, bitsUp_lowByte, ← foldSeq_append, ← bitsUp_add, Nat.mul_succ, Nat.add_comm 8]

theorem Cfg.Legal.foldBytes_wholeBytesDown {cfg : Cfg} (h : cfg.Legal) (hr : cfg.refin = false) {c : Word} (hc : Fits c cfg.bits)
    (v : Word) (q : Nat) : foldBytes cfg c (wholeBytesDown v q) = foldBits cfg c v (8 * q) := by
  induction q generalizing c with
  | zero => simp [wholeBytesDown, foldBits_direct hr]
  | succ q ih =>
    have hhead : wholeBytesDown v (q + 1) = lowByte (v >>> (8 * q)) :: wholeBytesDown v q := by
      simp only [wholeBytesDown, List.range_succ_eq_map, List.map_cons, List.map_map, List.cons.injEq]
      exact ⟨by simp, List.map_congr_left fun i _ => by simp [show q - (i + 1) = q - 1 - i by omega]⟩
    rw [hhead, foldBytes_cons, ih (h.foldByte_fits hc _), h.foldByte_eq_foldBits hc, foldBits_direct hr, foldBits_direct hr,
      foldBits_direct hr, bitsDown_lowByte, ← foldSeq_append, ← bitsDown_add, Nat.mul_succ, Nat.add_comm 8]

theorem Cfg.Legal.fastFoldBitsR_eq_foldBits {cfg : Cfg} (h : cfg.Legal) (hr : cfg.refin = true) {c : Word} (hc : Fits c cfg.bits)
    (v : Word) (n : Nat) : fastFoldBitsR cfg (buildTables cfg) c v n = foldBits cfg c v n := by
  have hlead : (if n % 8 > 0 then fastPartR cfg (buildTables cfg) c (v &&& lowMask (n % 8)) (n % 8) else c) =
      foldSeq cfg c (bitsUp v (n % 8)) := by
    split
    case isTrue =>
      rw [fastPartR_eq_foldBits hr c (by omega) (fits_lowMask (by omega) v), foldBits_reflected hr, bitsUp_mask v (by omega)]
    case isFalse h0 => simp [show n % 8 = 0 by omega]
  have hfit := h.foldSeq_fits hc (bitsUp v (n % 8))
  rw [fastFoldBitsR, hlead, fastFoldBytes_reflected hr, h.fastFoldBytes_eq_foldBytes hfit, h.foldBytes_wholeBytesUp hr hfit,
    foldBits_reflected hr, foldBits_reflected hr, ← foldSeq_append, ← bitsUp_add, Nat.mod_add_div]

theorem Cfg.Legal.fastFoldBitsD_eq_foldBits {cfg : Cfg} (h : cfg.Legal) (hr : cfg.refin = false) {c : Word} (hc : Fits c cfg.bits)
    (v : Word) (n : Nat) : fastFoldBitsD cfg (buildTables cfg) c v n = foldBits cfg c v n := by
  have hlead : (if n % 8 > 0 then fastPartD cfg (buildTables cfg) c ((v >>> (n - n % 8)) &&& lowMask (n % 8)) (n % 8) else c) =
      foldSeq cfg c (bitsDown (v >>> (n - n % 8)) (n % 8)) := by
    split
    case isTrue =>
      rw [(h.direct hr).fastPartD_eq_foldBits hc (by omega) (fits_lowMask (by omega) _), foldBits_direct hr,
        bitsDown_mask _ (by omega)]
    case isFalse h0 => simp [show n % 8 = 0 by omega]
  have hfit := h.foldSeq_fits hc (bitsDown (v >>> (n - n % 8)) (n % 8))
  rw [fastFoldBitsD, hlead, fastFoldBytes_direct hr, h.fastFoldBytes_eq_foldBytes hfit, h.foldBytes_wholeBytesDown hr hfit,
    foldBits_direct hr, foldBits_direct hr, ← foldSeq_append, show n - n % 8 = 8 * (n / 8) by omega, ← bitsDown_add, Nat.mod_add_div]

theorem Cfg.Legal.fastFoldBits_eq_foldBits {cfg : Cfg} (h : cfg.Legal) {c : Word} (hc : Fits c cfg.bits) (v : Word) (n : Nat) :
    fastFoldBits cfg (buildTables cfg) c v n = foldBits cfg c v n := by
  cases hr : cfg.refin with
  | true => rw [fastFoldBits, if_pos hr, h.fastFoldBitsR_eq_foldBits hr hc]
  | false => rw [fastFoldBits, hr, if_neg Bool.false_ne_true, h.fastFoldBitsD_eq_foldBits hr hc]

/-! ### The invariant after every command -/

theorem readyFrom_inv {cfg : Cfg} (h : cfg.Legal) : (readyFrom cfg).Inv where
  legal := h
  tables := rfl
  check := readyFrom_check h
  reg := h.initeff_fits
  fresh _ := rfl

theorem Ready.Inv.makeFresh {r : Ready} (h : r.Inv) : r.makeFresh.Inv where
  legal := h.legal
  tables := h.tables
  check := h.check
  reg := h.legal.initeff_fits
  fresh _ := rfl

theorem Ready.Inv.accumulate {r : Ready} (h : r.Inv) {c : Word} (hc : Fits c r.cfg.bits) : (r.accumulate c).Inv where
  legal := h.legal
  tables := h.tables
  check := h.check
  reg := hc
  fresh hphase := Phase.noConfusion hphase

theorem Ready.Inv.fastByte_fits {r : Ready} (h : r.Inv) (b : Byte) : Fits (fastByte r.cfg r.tables r.reg b) r.cfg.bits := by
  rw [h.tables, h.legal.fastByte_eq_foldByte h.reg]
  exact h.legal.foldByte_fits h.reg b

theorem Ready.Inv.fastFoldBits_fits {r : Ready} (h : r.Inv) (v : Word) (n : Nat) :
    Fits (fastFoldBits r.cfg r.tables r.reg v n) r.cfg.bits := by
  rw [h.tables, h.legal.fastFoldBits_eq_foldBits h.reg]
  exact h.legal.foldSeq_fits h.reg _

/-- The invariant is of the block alone. -/
theorem State.Inv.of_block_eq {s t : State} (hs : s.Inv) (h : t.block = s.block) : t.Inv := by rwa [State.Inv, h]

theorem whenReady_keeps_inv {s t : State} {run : Ready → State} (hs : s.Inv) (h : whenReady s run = .next t)
    (hrun : ∀ r, r.Inv → (run r).Inv) : t.Inv := by
  obtain ⟨-, rfl⟩ | ⟨r, hr, rfl⟩ | ⟨_, -, rfl⟩ := whenReady_cases h
  · exact hs.of_block_eq (refuseState_block s)
  · rw [State.Inv, hr] at hs
    exact hrun r hs
  · exact hs.of_block_eq (refuseConfig_block _ s)

theorem configureBlock_inv (ri ro cp : Bool) (sh : Shape) (n : Nat) (p i x k : Word) (s : State) :
    (configureBlock ri ro cp sh n p i x k s).Inv := by
  obtain ⟨-, e⟩ | ⟨-, -, -, e⟩ | ⟨hw, -, e⟩ := configureBlock_cases ri ro cp sh n p i x k s
  · rw [e]
    exact trivial
  · rw [e]
    exact trivial
  · obtain ⟨h1, h64⟩ := (legalWidth_iff n).1 hw
    rw [e]
    exact readyFrom_inv (makeCfg_legal ri ro sh h1 h64 p i x)

/-- Every command keeps the invariant: CONFIGURE establishes it, and the others leave the configuration and write REG by a fold or afresh. -/
theorem exec_keeps_inv {s t : State} (hs : s.Inv) (i : Instr) (h : exec i s = .next t) : t.Inv := by
  cases i with
  | configure ri ro cp sh n p q x k =>
    obtain ⟨-, rfl⟩ | ⟨_, -, rfl⟩ | ⟨_, -, rfl⟩ := whenUnconfigured_cases h
    · exact configureBlock_inv ri ro cp sh n p q x k s
    · exact hs.of_block_eq (refuseState_block s)
    · exact hs.of_block_eq (refuseConfig_block _ s)
  | getEngine => exact whenReady_keeps_inv hs h fun _ hr => hr.makeFresh
  | update b => exact whenReady_keeps_inv hs h fun _ hr => hr.accumulate (hr.fastByte_fits b)
  | updateBits v n => exact whenReady_keeps_inv hs h fun _ hr => hr.accumulate (hr.fastFoldBits_fits v n)
  | finalize => exact whenReady_keeps_inv hs h fun _ hr => hr.makeFresh
  | read sel => exact whenReady_keeps_inv hs h fun _ _ => hs.of_block_eq (respond_block ..)
  | bitsRev v n =>
    cases h
    exact hs.of_block_eq (respond_block ..)

/-! ### The width of REG (R118) -/

/-- A one-bit register moves out of itself whole, so a step leaves the gated polynomial alone. -/
theorem Cfg.Legal.step_one_bit {cfg : Cfg} (h : cfg.Legal) (h1 : cfg.bits = 1) {c : Word} (hc : Fits c 1) (d : Bool) :
    stepR cfg c d = gated (c.getLsbD 0 ^^ d) cfg.polyrev ∧ stepD cfg c d = gated (c.getLsbD 0 ^^ d) cfg.poly := by
  have hright : c >>> 1 = 0 := hc.ushiftRight_eq_zero (Nat.le_refl 1)
  have hleft : c <<< 1 &&& cfg.mask = 0 := by
    rw [h.mask, h1]
    exact fits_ext (fits_lowMask (by decide) _) (fits_zero 1) fun i hi => by simp [hi]
  constructor
  · rw [stepR, hright]
    simp
  · rw [stepD, hleft, h1]
    simp

theorem Cfg.Legal.one_bit_poly {cfg : Cfg} (h : cfg.Legal) (h1 : cfg.bits = 1) :
    cfg.polyrev = cfg.poly ∧ (cfg.poly = 0 ∨ cfg.poly = 1) := by
  have hp : Fits cfg.poly 1 := h1 ▸ h.poly
  constructor
  · rw [h.polyrev, h1, bitsRev_one, hp.and_lowMask (by decide)]
  · have : cfg.poly.toNat < 2 := hp
    bv_omega

/-- Settles O27: a step by `stepBit_fits`; after a command REG's width is a part of the invariant, which every command keeps; at one bit
nothing of the register is left beside the gated polynomial. -/
theorem stepKeepsTheWidth : Obligations.StepKeepsTheWidth := by
  unfold Obligations.StepKeepsTheWidth
  refine ⟨fun _ _ d hlegal hc => hlegal.stepBit_fits hc d, ?command, ?oneBit⟩
  case command =>
    intro s t i r hs hexec hr
    have ht : t.block.Inv := exec_keeps_inv hs i hexec
    rw [hr] at ht
    exact ht.reg
  case oneBit =>
    intro cfg c d hlegal h1 hc
    obtain ⟨hstepR, hstepD⟩ := hlegal.step_one_bit h1 hc d
    exact ⟨hstepR, hstepD, hlegal.one_bit_poly h1⟩

end Sys2Proof.Machine
end

section
/-! SUPPORT. The lookup tables entry by entry (spec/42_table_construction.md): what the built tables hold under each shape
(R142, R144 to R146), that `lut8` reads one function from all three (R147), and the range of an entry (R148). -/

namespace Sys2Proof.Machine

/-! ### The tables of each shape -/

theorem buildTables_s256 {cfg : Cfg} (h : cfg.shape = .s256) : buildTables cfg = .t256 (tabulate 256 (entry256 cfg)) := by
  rw [buildTables, h]

theorem buildTables_s2x16 {cfg : Cfg} (h : cfg.shape = .s2x16) :
    buildTables cfg = .t2x16 (tabulate 16 (entryLo cfg)) (tabulate 16 (entryHi cfg)) := by
  rw [buildTables, h]

theorem buildTables_s16 {cfg : Cfg} (h : cfg.shape = .s16) : buildTables cfg = .t16 (tabulate 16 (entry16 cfg)) := by
  rw [buildTables, h]

/-! ### A byte's contribution from a zero register -/

/-- A byte's contribution is linear in the byte (R128). -/
theorem calcByte_zero_xor (cfg : Cfg) (a b : Byte) (n : Nat) :
    calcByte cfg 0 (a ^^^ b) n = calcByte cfg 0 a n ^^^ calcByte cfg 0 b n := by
  simpa using calcByte_xor cfg 0 0 a b n

/-- A linear function is 0 at 0, and the alignment keeps 0. -/
theorem calcByte_zero_zero_align (cfg : Cfg) : calcByte cfg 0 0 8 <<< cfg.align = 0 := by
  have hzero : calcByte cfg 0 0 8 = 0 := by simpa using calcByte_zero_xor cfg 0 0 8
  rw [hzero]
  exact BitVec.zero_shiftLeft cfg.align

/-- The last bit of a direct byte meets the polynomial once. -/
theorem Direct.calcByte_zero_one {cfg : Cfg} (h : Direct cfg) : calcByte cfg 0 1 8 <<< cfg.align = cfg.poly <<< cfg.align := by
  have hge := h.workBits_ge
  have hle := h.work.le
  have hone : Fits (wordOfByte 1) 1 := by decide
  have hout : wordOfByte 1 <<< (cfg.work.bits - 1) <<< 1 &&& cfg.work.mask = 0 := by
    rw [← BitVec.shiftLeft_add, Nat.sub_add_cancel h.work.pos, h.work.mask]
    exact fits_ext (fits_lowMask hle _) (fits_zero _) fun i hi => by simp [hi]
  have htop : (wordOfByte 1 <<< (cfg.work.bits - 1)).getLsbD (cfg.work.bits - 1) = true := by
    rw [BitVec.getLsbD_shiftLeft]
    simp [show cfg.work.bits - 1 < 64 by omega]
  rw [h.calcByte_zero_work, h.work.iterate_low hge (by decide) hone, Function.iterate_one, shiftD, hout, htop]
  exact BitVec.zero_xor

/-- The last bit of a reflected byte meets the reversed polynomial once. -/
theorem calcByte_zero_top_reflected {cfg : Cfg} (hr : cfg.refin = true) : calcByte cfg 0 0x80 8 = cfg.polyrev := by
  have hone : Fits 1 1 := by decide
  have htop : wordOfByte 0x80 = (1 : Word) <<< (8 - 1) := by decide
  rw [calcByte_zero_reflected hr, htop, shiftR_iterate_top cfg (by decide) hone]
  exact BitVec.zero_xor

/-- Settles O33: an entry is its index's contribution by construction, and the contribution is linear (`calcByte_zero_xor`). -/
theorem table256Entries : Obligations.Table256Entries := by
  unfold Obligations.Table256Entries
  intro cfg hlegal hshape
  have hentry (b : Byte) : lookup256 (tabulate 256 (entry256 cfg)) b = calcByte cfg 0 b 8 <<< cfg.align := by
    rw [lookup256_tabulate, entry256, BitVec.ofNat_toNat, BitVec.setWidth_eq]
  refine ⟨_, buildTables_s256 hshape, hentry, ?zero, fun a b => ?linear, fun hr => ?direct, fun hr => ?reflected⟩
  case zero => rw [hentry, calcByte_zero_zero_align]
  case linear => rw [hentry, hentry, hentry, calcByte_zero_xor, BitVec.shiftLeft_xor_distrib]
  case direct => rw [hentry, (hlegal.direct hr).calcByte_zero_one]
  case reflected => rw [hentry, calcByte_zero_top_reflected hr, align_reflected hr, BitVec.shiftLeft_zero]

/-! ### One `lut8` under every shape -/

/-- `lut8` of the built tables is its index's contribution, aligned. -/
theorem Cfg.Legal.lut8_eq_calcByte {cfg : Cfg} (h : cfg.Legal) (y : Byte) :
    lut8 cfg (buildTables cfg) y = calcByte cfg 0 y 8 <<< cfg.align := by
  cases hr : cfg.refin with
  | true => rw [lut8_reflected hr, calcByte_zero_reflected hr, align_reflected hr, BitVec.shiftLeft_zero]
  | false => rw [(h.direct hr).lut8_eq_iterate, (h.direct hr).calcByte_zero_work]

/-- Legality does not read the shape. -/
theorem Cfg.Legal.withShape {cfg : Cfg} (h : cfg.Legal) (sh : Shape) : { cfg with shape := sh }.Legal :=
  { h with }

/-- Under any shape `lut8` is the contribution, which does not read the shape. -/
theorem Cfg.Legal.lut8_withShape {cfg : Cfg} (h : cfg.Legal) (sh : Shape) (y : Byte) :
    lut8 { cfg with shape := sh } (buildTables { cfg with shape := sh }) y = calcByte cfg 0 y 8 <<< cfg.align :=
  (h.withShape sh).lut8_eq_calcByte y

/-- Under any shape the fast CRC is the slow one, which does not read the shape. -/
theorem Cfg.Legal.tableCrcOf_withShape {cfg : Cfg} (h : cfg.Legal) (sh : Shape) (bs : List Byte) :
    tableCrcOf { cfg with shape := sh } (buildTables { cfg with shape := sh }) bs = crcOf cfg bs :=
  (h.withShape sh).tableCrcOf_eq_crcOf bs

/-- Settles O36: under every shape `lut8` is the contribution and the fast CRC is the slow one, for any two shapes alike. -/
theorem shapesGiveOneLut8 : Obligations.ShapesGiveOneLut8 := by
  unfold Obligations.ShapesGiveOneLut8
  refine ⟨fun cfg y hlegal => hlegal.lut8_eq_calcByte y, fun cfg sh₁ sh₂ y hlegal => ?lut, fun cfg sh₁ sh₂ bs hlegal => ?crc⟩
  case lut => rw [hlegal.lut8_withShape sh₁, hlegal.lut8_withShape sh₂]
  case crc => rw [hlegal.tableCrcOf_withShape sh₁, hlegal.tableCrcOf_withShape sh₂]

/-! ### The nibble tables -/

theorem lookup16_entryLo (cfg : Cfg) (i : Nibble) :
    lookup16 (tabulate 16 (entryLo cfg)) i = calcByte cfg 0 (i.setWidth 8) 8 <<< cfg.align := by
  rw [lookup16_tabulate, entryLo, BitVec.ofNat_toNat]

theorem ofNat_highNibble (i : Nibble) : (.ofNat 8 (i.toNat <<< 4) : Byte) = i.setWidth 8 <<< 4 := by
  revert i
  decide

theorem lookup16_entryHi (cfg : Cfg) (i : Nibble) :
    lookup16 (tabulate 16 (entryHi cfg)) i = calcByte cfg 0 (i.setWidth 8 <<< 4) 8 <<< cfg.align := by
  rw [lookup16_tabulate, entryHi, ofNat_highNibble]

/-- Settles O34: the entries by construction; the sum of the two is `lut8` of this shape. -/
theorem splitTableEntries : Obligations.SplitTableEntries := by
  unfold Obligations.SplitTableEntries
  intro cfg hlegal hshape
  have htables := buildTables_s2x16 hshape
  refine ⟨_, _, htables, lookup16_entryLo cfg, lookup16_entryHi cfg, fun b => ?sum, ?lo, ?hi⟩
  case sum =>
    have hlut := hlegal.lut8_eq_calcByte b
    rwa [htables] at hlut
  case lo => exact (lookup16_entryLo cfg 0).trans (calcByte_zero_zero_align cfg)
  case hi => exact (lookup16_entryHi cfg 0).trans (calcByte_zero_zero_align cfg)

theorem lookup16_entry16_reflected {cfg : Cfg} (hr : cfg.refin = true) (i : Nibble) :
    lookup16 (tabulate 16 (entry16 cfg)) i = calcByteR cfg 0 (i.setWidth 8) 4 := by
  rw [lookup16_tabulate, entry16, if_pos hr, calcByte, if_pos hr, BitVec.ofNat_toNat]

theorem lookup16_entry16_direct {cfg : Cfg} (hr : cfg.refin = false) (i : Nibble) :
    lookup16 (tabulate 16 (entry16 cfg)) i = calcByteD cfg 0 (i.setWidth 8) 8 <<< cfg.align := by
  rw [lookup16_tabulate, entry16, hr, if_neg Bool.false_ne_true, calcByte, hr, if_neg Bool.false_ne_true, BitVec.ofNat_toNat]

/-- A nibble at the top of a reflected byte is folded in the last four of its eight shifts. -/
theorem calcByte_zero_highNibble_reflected {cfg : Cfg} (hr : cfg.refin = true) (i : Nibble) :
    calcByte cfg 0 (i.setWidth 8 <<< 4) 8 = (shiftR cfg)^[4] (i.setWidth 64) := by
  rw [calcByte_zero_reflected hr, ← ofNat_highNibble, wordOfByte_ofNat_highNibble]
  exact shiftR_iterate_top cfg (r := 4) (by decide) (fits_setWidth i)

theorem foldBits_nibble_reflected {cfg : Cfg} (hr : cfg.refin = true) (i : Nibble) :
    foldBits cfg 0 (i.setWidth 64) 4 = (shiftR cfg)^[4] (i.setWidth 64) := by
  rw [foldBits_reflected hr, foldSeq_zero_bitsUp hr (fits_setWidth i)]

theorem Direct.foldBits_nibble_work {cfg : Cfg} (h : Direct cfg) (i : Nibble) :
    foldBits cfg 0 (i.setWidth 64) 4 <<< cfg.align = (shiftD cfg.work)^[4] (i.setWidth 64 <<< (cfg.work.bits - 4)) := by
  have hwide : 4 ≤ cfg.work.bits := Nat.le_trans (by decide) h.workBits_ge
  have hzero : (0 : Word) <<< cfg.align = 0 := BitVec.zero_shiftLeft cfg.align
  rw [foldBits_direct h.refin, ← h.foldSeq_work, hzero, h.work.foldSeq_zero_bitsDown hwide (fits_setWidth i)]

/-- In both modes an entry of the 16-entry table is its nibble folded from a zero register, aligned. -/
theorem Cfg.Legal.entry16_eq_foldBits {cfg : Cfg} (h : cfg.Legal) (i : Nibble) :
    entry16 cfg i.toNat = foldBits cfg 0 (i.setWidth 64) 4 <<< cfg.align := by
  cases hr : cfg.refin with
  | true =>
    rw [entry16, if_pos hr, calcByte_zero_reflected hr, wordOfByte_ofNat_nibble, foldBits_nibble_reflected hr, align_reflected hr,
      BitVec.shiftLeft_zero]
  | false => rw [(h.direct hr).entry16_eq_iterate, (h.direct hr).foldBits_nibble_work]

/-- Settles O35: an entry is the nibble's fold; reflected, THI's entry is the same four shifts; direct, TLO's entry is the same term. -/
theorem nibbleTableEntries : Obligations.NibbleTableEntries := by
  unfold Obligations.NibbleTableEntries
  intro cfg hlegal hshape
  have hfold (i : Nibble) : lookup16 (tabulate 16 (entry16 cfg)) i = foldBits cfg 0 (i.setWidth 64) 4 <<< cfg.align := by
    rw [lookup16_tabulate, hlegal.entry16_eq_foldBits]
  refine ⟨_, buildTables_s16 hshape, hfold, fun i hr => ⟨lookup16_entry16_reflected hr i, ?high⟩,
    fun i hr => lookup16_entry16_direct hr i⟩
  case high => rw [hfold, foldBits_nibble_reflected hr, calcByte_zero_highNibble_reflected hr]

/-! ### The range of an entry -/

/-- The range of R148. -/
def Cfg.EntryInRange (cfg : Cfg) (e : Word) : Prop :=
  (cfg.refin = true → Fits e cfg.bits) ∧
    (cfg.refin = false → Fits e cfg.workBits ∧ e.toNat % 2 ^ cfg.align = 0) ∧ Fits e cfg.rtw

theorem toNat_shiftLeft_mod (v : Word) {k : Nat} (hk : k ≤ 64) : (v <<< k).toNat % 2 ^ k = 0 := by
  rw [BitVec.toNat_shiftLeft, Nat.shiftLeft_eq, Nat.mod_mod_of_dvd _ (Nat.pow_dvd_pow 2 hk), Nat.mul_mod_left]

/-- The alignment is none, or it fills a byte (R141). -/
theorem align_cases (cfg : Cfg) : cfg.align = 0 ∨ cfg.bits + cfg.align = 8 := by
  rw [Cfg.align]
  split
  case isTrue hnarrow =>
    have hbits : cfg.bits < 8 := of_decide_eq_true (Bool.and_eq_true_iff.1 hnarrow).2
    omega
  case isFalse => exact .inl rfl

theorem eight_le_resultWidth (n : Nat) : 8 ≤ resultWidth n := by
  unfold resultWidth
  split_ifs <;> decide

/-- The container holds the width and at least 8 bits, so the alignment stays inside it. -/
theorem bits_add_align_le_resultWidth {cfg : Cfg} (h : cfg.bits ≤ 64) : cfg.bits + cfg.align ≤ resultWidth cfg.bits := by
  have hle := le_resultWidth h
  have h8 := eight_le_resultWidth cfg.bits
  obtain halign | halign := align_cases cfg <;> omega

/-- A register value, aligned, is in range. -/
theorem Cfg.Legal.shiftLeft_align_inRange {cfg : Cfg} (h : cfg.Legal) {v : Word} (hv : Fits v cfg.bits) :
    cfg.EntryInRange (v <<< cfg.align) := by
  have hfit := hv.shiftLeft cfg.align
  refine ⟨fun hr => ?reflected, fun hr => ⟨?work, ?lowBits⟩, ?container⟩
  case reflected => rwa [align_reflected hr] at hfit ⊢
  case work => rwa [workBits_eq hr]
  case lowBits =>
    have halign := align_cases cfg
    exact toNat_shiftLeft_mod v (by omega)
  case container =>
    rw [h.rtw]
    exact hfit.mono (bits_add_align_le_resultWidth h.width.2)

theorem Cfg.Legal.contribution_inRange {cfg : Cfg} (h : cfg.Legal) (b : Byte) :
    cfg.EntryInRange (calcByte cfg 0 b 8 <<< cfg.align) :=
  h.shiftLeft_align_inRange (h.foldByte_fits (fits_zero _) b)

theorem Cfg.Legal.entry16_inRange {cfg : Cfg} (h : cfg.Legal) (i : Nibble) : cfg.EntryInRange (entry16 cfg i.toNat) := by
  rw [h.entry16_eq_foldBits]
  exact h.shiftLeft_align_inRange (h.foldSeq_fits (fits_zero _) _)

/-- Settles O37: every entry is an aligned register value, a byte's contribution or a nibble's fold. -/
theorem tableEntriesAreInRange : Obligations.TableEntriesAreInRange := by
  unfold Obligations.TableEntriesAreInRange
  intro cfg hlegal inRange
  cases hshape : cfg.shape with
  | s256 =>
    rw [buildTables_s256 hshape]
    intro b
    rw [lookup256_tabulate]
    exact hlegal.contribution_inRange _
  | s2x16 =>
    rw [buildTables_s2x16 hshape]
    intro i
    rw [lookup16_tabulate, lookup16_tabulate]
    exact ⟨hlegal.contribution_inRange _, hlegal.contribution_inRange _⟩
  | s16 =>
    rw [buildTables_s16 hshape]
    intro i
    rw [lookup16_tabulate]
    exact hlegal.entry16_inRange i

end Sys2Proof.Machine
end

section
/-! SUPPORT. The statements about the fast recurrence (spec/43_fast_recurrence.md): the nibble-at-a-time byte step of the 16-entry shape
(R168) splits the eight shifts of a byte in two fours, and every fast path through the built tables is the slow recurrence (R175). -/

namespace Sys2Proof.Machine

/-! ### The nibble-at-a-time byte step -/

/-- Only the 16-entry shape builds a single table of 16 entries. -/
theorem eq_tabulate_of_buildTables_t16 {cfg : Cfg} {t : Vector Word 16} (h : buildTables cfg = .t16 t) :
    t = tabulate 16 (entry16 cfg) := by
  cases hs : cfg.shape with
  | s256 => rw [buildTables_s256 hs] at h; cases h
  | s2x16 => rw [buildTables_s2x16 hs] at h; cases h
  | s16 => rw [buildTables_s16 hs] at h; cases h; rfl

/-- In two fours of a linear shift, a register that stands apart is shifted eight times. -/
theorem iterate_four_twice_xor {f : Word → Word} (hf : ∀ x y, f (x ^^^ y) = f x ^^^ f y) (c x y : Word) :
    f^[4] (f^[4] (c ^^^ x) ^^^ y) = f^[8] c ^^^ f^[4] (f^[4] x ^^^ y) := by
  rw [iterate_xor hf 4 c, BitVec.xor_assoc, iterate_xor hf 4 (f^[4] c), ← Function.iterate_add_apply]

theorem nibbleByte_reflected_eq_foldByte {cfg : Cfg} (hr : cfg.refin = true) (c : Word) (b : Byte) :
    nibbleByte cfg (tabulate 16 (entry16 cfg)) c b = foldByte cfg c b := by
  rw [nibbleByte, if_pos hr, nibR_entry16 hr, nibR_entry16 hr, iterate_four_twice_xor (shiftR_xor cfg), ← shiftR_iterate_nibbles,
    ← iterate_xor (shiftR_xor cfg), foldByte, calcByte_reflected hr]

theorem Cfg.Legal.nibbleByte_direct_eq_foldByte {cfg : Cfg} (hlegal : cfg.Legal) (hr : cfg.refin = false) {c : Word}
    (hc : Fits c cfg.bits) (b : Byte) : nibbleByte cfg (tabulate 16 (entry16 cfg)) c b = foldByte cfg c b := by
  have h := hlegal.direct hr
  have hge := h.workBits_ge
  have hwork : Fits (cfg.toWork c) cfg.work.bits := (hc.shiftLeft _).mono (Nat.le_of_eq (workBits_eq hr).symm)
  have hnibble : Fits ((hiNibble b).setWidth 64 <<< (cfg.work.bits - 4)) cfg.work.bits :=
    ((fits_setWidth _).shiftLeft _).mono (by omega)
  have hstep : nibD cfg (tabulate 16 (entry16 cfg)) (nibD cfg (tabulate 16 (entry16 cfg)) (cfg.toWork c) (hiNibble b)) (loNibble b) =
      foldByte cfg c b <<< cfg.align := by
    rw [h.nibD_entry16 hwork, h.nibD_entry16 (h.work.iterate_fits (hwork.xor hnibble) 4),
      iterate_four_twice_xor (shiftD_xor cfg.work), ← h.work.iterate_nibbles hge, ← iterate_xor (shiftD_xor cfg.work), foldByte,
      h.calcByte_work hc, Cfg.toWork]
  rw [nibbleByte, hr, if_neg Bool.false_ne_true, hstep, Cfg.ofWork, ofWork_toWork h.work.le hr (hlegal.foldByte_fits hc b)]

/-- Stepping by nibbles through the built 16-entry table is the slow byte step. -/
theorem Cfg.Legal.nibbleByte_eq_foldByte {cfg : Cfg} (h : cfg.Legal) {c : Word} (hc : Fits c cfg.bits) (b : Byte) :
    nibbleByte cfg (tabulate 16 (entry16 cfg)) c b = foldByte cfg c b := by
  cases hr : cfg.refin with
  | true => exact nibbleByte_reflected_eq_foldByte hr c b
  | false => exact h.nibbleByte_direct_eq_foldByte hr hc b

/-- Settles O38: both byte steps are the slow one. -/
theorem nibbleStepIsFastByteStep : Obligations.NibbleStepIsFastByteStep := by
  unfold Obligations.NibbleStepIsFastByteStep
  intro cfg c b t hlegal hc ht
  have hnibble : nibbleByte cfg t c b = foldByte cfg c b := by
    rw [eq_tabulate_of_buildTables_t16 ht]
    exact hlegal.nibbleByte_eq_foldByte hc b
  have hfast : fastByte cfg (.t16 t) c b = foldByte cfg c b := by
    rw [← ht]
    exact hlegal.fastByte_eq_foldByte hc b
  exact hnibble.trans hfast.symm

/-! ### Every fast path -/

theorem fastByte_reflected {cfg : Cfg} (hr : cfg.refin = true) (t : Tables) (c : Word) (b : Byte) :
    fastByte cfg t c b = fastByteR cfg t c b := by rw [fastByte, if_pos hr]

theorem fastByte_direct {cfg : Cfg} (hr : cfg.refin = false) (t : Tables) (c : Word) (b : Byte) :
    fastByte cfg t c b = fastByteD cfg t c b := by rw [fastByte, hr, if_neg Bool.false_ne_true]

/-- Settles O39: each fast path through the built tables by its own refinement lemma. -/
theorem fastRecurrenceIsSlowRecurrence : Obligations.FastRecurrenceIsSlowRecurrence := by
  unfold Obligations.FastRecurrenceIsSlowRecurrence
  intro cfg c hlegal hc tables
  refine ⟨fun b hr => ?byteR, fun b hr => ?byteD, fun r d _ h7 hd hr => ?partR, fun r d _ h7 hd hr => ?partD, fun bs => ?bytes,
    fun v n _ => ?bits⟩
  case byteR => rw [← fastByte_reflected hr, hlegal.fastByte_eq_foldByte hc]
  case byteD => rw [← fastByte_direct hr, hlegal.fastByte_eq_foldByte hc]
  case partR => exact fastPartR_eq_foldBits hr c (Nat.le_succ_of_le h7) hd
  case partD => exact (hlegal.direct hr).fastPartD_eq_foldBits hc (Nat.le_succ_of_le h7) hd
  case bytes => exact hlegal.fastFoldBytes_eq_foldBytes hc bs
  case bits => exact hlegal.fastFoldBits_eq_foldBits hc v n

end Sys2Proof.Machine
end

section
/-! SUPPORT. The commands of state R one at a time (spec/44_engine_operations.md R190 to R205): the gate they share, the whole next state of
each with the fold by the slow recurrence, and the output transform (R198, R200). -/

namespace Sys2Proof.Machine

/-! ### The gate -/

/-- The gate `whenReady` is all that stands between such a command and its refusal. -/
theorem refusedUnlessReady_of_whenReady {i : Instr} (run : State → Ready → State) (h : ∀ s, exec i s = whenReady s (run s)) :
    RefusedUnlessReady i := fun s =>
  ⟨fun hs => (h s).trans (whenReady_unconfigured hs _), fun _ hs => (h s).trans (whenReady_configError hs _)⟩

theorem refusedUnlessReady {i : Instr} (h : i.needsReady = true) : RefusedUnlessReady i := by
  cases i with
  | configure => contradiction
  | getEngine => exact refusedUnlessReady_of_whenReady _ fun _ => rfl
  | update => exact refusedUnlessReady_of_whenReady _ fun _ => rfl
  | updateBits => exact refusedUnlessReady_of_whenReady _ fun _ => rfl
  | finalize => exact refusedUnlessReady_of_whenReady _ fun _ => rfl
  | read => exact refusedUnlessReady_of_whenReady _ fun _ => rfl
  | bitsRev => contradiction

theorem State.Inv.ready {s : State} {r : Ready} (hs : s.Inv) (h : s.block = .ready r) : r.Inv := by
  rwa [State.Inv, h] at hs

/-! ### The next state of each command -/

theorem exec_getEngine {s : State} {r : Ready} (h : s.block = .ready r) :
    exec .getEngine s = .next (respond .ok 0 (setReady r.makeFresh s)) := whenReady_ready h _

theorem exec_update {s : State} {r : Ready} (h : s.block = .ready r) (hr : r.Inv) (b : Byte) :
    exec (.update b) s = .next (respond .ok 0 (setReady (r.accumulate (foldByte r.cfg r.reg b)) s)) := by
  rw [← hr.legal.fastByte_eq_foldByte hr.reg, ← hr.tables]
  exact whenReady_ready h _

theorem exec_updateBits {s : State} {r : Ready} (h : s.block = .ready r) (hr : r.Inv) (v : Word) (n : Nat) :
    exec (.updateBits v n) s = .next (respond .ok 0 (setReady (r.accumulate (foldBits r.cfg r.reg v n)) s)) := by
  rw [← hr.legal.fastFoldBits_eq_foldBits hr.reg, ← hr.tables]
  exact whenReady_ready h _

theorem exec_finalize {s : State} {r : Ready} (h : s.block = .ready r) :
    exec .finalize s = .next (respond .ok (final r.cfg r.reg) (setReady r.makeFresh s)) := whenReady_ready h _

theorem exec_read {s : State} {r : Ready} (h : s.block = .ready r) (sel : Selector) :
    exec (.read sel) s = .next (respond .ok (readValue r sel) s) := whenReady_ready h _

/-! ### The output transform -/

/-- The mask changes nothing: reversal and XOR stay below the width. -/
theorem Cfg.Legal.final_eq {cfg : Cfg} (h : cfg.Legal) {c : Word} (hc : Fits c cfg.bits) :
    final cfg c = (if cfg.refin ≠ cfg.refout then bitsRev c cfg.bits else c) ^^^ cfg.xorout := by
  have hfit : Fits (if cfg.refin ≠ cfg.refout then bitsRev c cfg.bits else c) cfg.bits := by
    split
    · exact fits_bitsRev c h.width.2
    · exact hc
  rw [final, h.mask]
  simp only [bne_iff_ne]
  exact (hfit.xor h.xorout).and_lowMask h.width.2

theorem Cfg.Legal.final_fits {cfg : Cfg} (h : cfg.Legal) (c : Word) : Fits (final cfg c) cfg.bits := by
  rw [final, h.mask]
  exact fits_lowMask h.width.2 _

theorem crcOf_nil (cfg : Cfg) : crcOf cfg [] = final cfg cfg.initeff := rfl

/-- Settles O51: `final_eq` in the two cases of the reflections; masking twice is masking once. -/
theorem outputTransform : Obligations.OutputTransform := by
  unfold Obligations.OutputTransform
  intro cfg c hlegal hc
  refine ⟨fun heq => ?same, fun hne => ?differ, ?mask⟩
  case same => rw [hlegal.final_eq hc, if_neg (not_not_intro heq)]
  case differ => rw [hlegal.final_eq hc, if_pos hne]
  case mask => rw [final, BitVec.and_assoc, BitVec.and_self]

/-- INITEFF turned the way REFOUT names is INIT turned the way REFOUT names, whatever REFIN is. -/
theorem Cfg.Legal.transformed_initeff {cfg : Cfg} (h : cfg.Legal) :
    (if cfg.refin ≠ cfg.refout then bitsRev cfg.initeff cfg.bits else cfg.initeff) =
      if cfg.refout = true then bitsRev cfg.init cfg.bits else cfg.init := by
  rw [h.initeff, initialRegister]
  cases cfg.refin <;> cases cfg.refout
  · rfl
  · rfl
  · exact bitsRev_bitsRev h.width.2 h.init
  · rfl

/-- Settles O52: the output transform of INITEFF. -/
theorem crcOfTheEmptyMessage : Obligations.CrcOfTheEmptyMessage := by
  unfold Obligations.CrcOfTheEmptyMessage
  intro cfg hlegal
  have hclosed := hlegal.final_eq hlegal.initeff_fits
  refine ⟨crcOf_nil cfg, hclosed, fun hro => ?reflected, fun hro => ?direct⟩
  case reflected => rw [crcOf_nil, hclosed, hlegal.transformed_initeff, if_pos hro]
  case direct => rw [crcOf_nil, hclosed, hlegal.transformed_initeff, hro, if_neg Bool.false_ne_true]

/-! ### GET_ENGINE, FINALIZE and READ -/

/-- A Fresh engine is as `makeFresh` leaves it. -/
theorem Ready.Inv.eq_makeFresh {r : Ready} (h : r.Inv) (hfresh : r.phase = .fresh) : r = r.makeFresh := by
  rw [Ready.makeFresh, ← h.fresh hfresh, ← hfresh]

/-- Settles O44: the next state is `exec_getEngine`'s; a Fresh engine already has these values. -/
theorem getEngineMakesFresh : Obligations.GetEngineMakesFresh := by
  unfold Obligations.GetEngineMakesFresh
  have hexample : exampleCfg.initeff = 0xFFFFFFFF := by decide +kernel
  exact ⟨rfl, refusedUnlessReady rfl, fun s r h => ⟨exec_getEngine h, fun hs hfresh => (hs.ready h).eq_makeFresh hfresh,
    fun hcfg => hcfg ▸ hexample⟩⟩

/-- The CRC of a Fresh engine is that of the empty message. -/
theorem Ready.Inv.final_fresh {r : Ready} (h : r.Inv) (hfresh : r.phase = .fresh) : final r.cfg r.reg = crcOf r.cfg [] := by
  rw [h.fresh hfresh, crcOf_nil]

/-- Settles O48: the next state is `exec_finalize`'s, and the second FINALIZE finds the engine the first made Fresh. -/
theorem finalizeAnswersAndResets : Obligations.FinalizeAnswersAndResets := by
  unfold Obligations.FinalizeAnswersAndResets
  refine ⟨rfl, refusedUnlessReady rfl, fun s r h => ⟨exec_finalize h, fun hs => (hs.ready h).legal.final_fits _,
    fun hs => (hs.ready h).final_fresh, ?twice⟩, by decide +kernel, by decide +kernel⟩
  case twice =>
    have hfirst : (respond .ok (final r.cfg r.reg) (setReady r.makeFresh s)).block = .ready r.makeFresh := rfl
    simp only [execAll, exec_finalize h, exec_finalize hfirst]
    simp [respond, setReady, Ready.makeFresh, crcOf_nil]

/-- A reserved selector makes the frame of READ illegal (R79). -/
theorem decode_read_reserved {b : Byte} (hb : 0x0C < b.toNat) : decode (.whole [0x06, b]) = .error .selector := by
  calc decode (.whole [Opcode.read.code, b])
    _ = decodeOperands .read [b] := decode_opcode_cons rfl
    _ = decodeRead b := rfl
    _ = .error .selector := by rw [decodeRead, (Selector.ofCode_none b).2 hb]

/-- Settles O49: READ answers `readValue`, selector by selector. -/
theorem readAnswersTheSelectedValue : Obligations.ReadAnswersTheSelectedValue := by
  unfold Obligations.ReadAnswersTheSelectedValue
  refine ⟨fun _ => ⟨rfl, refusedUnlessReady rfl⟩, fun _ hb => decode_read_reserved hb, rfl, fun s r h => ?values,
    by decide +kernel, by decide +kernel⟩
  case values =>
    intro answers
    have hread {sel : Selector} {value : Word} (hvalue : readValue r sel = value) : answers sel value :=
      hvalue ▸ exec_read h sel
    exact ⟨hread rfl, hread rfl, hread rfl, hread rfl, hread rfl, hread rfl, hread rfl, hread rfl, hread rfl, hread rfl, hread rfl,
      hread (by rw [readValue]; cases r.cfg.shape <;> rfl), hread (by rw [readValue]; cases r.phase <;> rfl)⟩

/-! ### UPDATE and UPDATE_BITS -/

/-- The eight bits of a byte in fold order, written out. -/
theorem dataBits_wordOfByte (refin : Bool) (b : Byte) :
    dataBits refin (wordOfByte b) 8 = if refin = true then
      [b.getLsbD 0, b.getLsbD 1, b.getLsbD 2, b.getLsbD 3, b.getLsbD 4, b.getLsbD 5, b.getLsbD 6, b.getLsbD 7] else
      [b.getLsbD 7, b.getLsbD 6, b.getLsbD 5, b.getLsbD 4, b.getLsbD 3, b.getLsbD 2, b.getLsbD 1, b.getLsbD 0] := by
  cases refin
  · exact bitsDown_wordOfByte_top b (Nat.le_refl 8)
  · exact bitsUp_wordOfByte b (Nat.le_refl 8)

theorem dataBits_mask (refin : Bool) (v : Word) {n : Nat} (hn : n ≤ 64) : dataBits refin (v &&& lowMask n) n = dataBits refin v n := by
  cases refin
  · exact bitsDown_mask v hn
  · exact bitsUp_mask v hn

theorem dataBits_lowByte (refin : Bool) (v : Word) : dataBits refin (wordOfByte (lowByte v)) 8 = dataBits refin v 8 := by
  cases refin
  · exact bitsDown_lowByte v
  · exact bitsUp_lowByte v

theorem dataBits_zero (refin : Bool) (v : Word) : dataBits refin v 0 = [] := by
  cases refin
  · exact bitsDown_zero v
  · exact bitsUp_zero v

theorem foldBits_zero (cfg : Cfg) (c v : Word) : foldBits cfg c v 0 = c := by
  rw [foldBits, dataBits_zero, foldSeq_nil]

/-- Settles O45: the next state is `exec_update`'s; a byte is folded bit by bit. -/
theorem updateFoldsTheByte : Obligations.UpdateFoldsTheByte := by
  unfold Obligations.UpdateFoldsTheByte
  refine ⟨fun _ => ⟨rfl, refusedUnlessReady rfl⟩, fun s r b h hs => ⟨exec_update h (hs.ready h) b, ?bits⟩, by decide +kernel⟩
  case bits =>
    have hr := hs.ready h
    rw [hr.legal.foldByte_eq_foldBits hr.reg, foldBits, dataBits_wordOfByte]

/-- A count above 64 makes the frame of UPDATE_BITS illegal, whatever its value (R79). -/
theorem decode_updateBits_count {n : Byte} (hn : 64 < n.toNat) (v : Word) :
    decode (.whole (0x04 :: n :: bytesOfWord v)) = .error .count := by
  have hcount : n.toNat > Config.maxCount := hn
  calc decode (.whole (Opcode.updateBits.code :: n :: bytesOfWord v))
    _ = decodeOperands .updateBits (n :: bytesOfWord v) := decode_opcode_cons rfl
    _ = decodeCounted .updateBits n (bytesOfWord v) := rfl
    _ = .error .count := by rw [decodeCounted, if_pos hcount]

/-- Settles O46: the next state is `exec_updateBits`'; what is folded depends on the low n bits alone. -/
theorem updateBitsFoldsTheBits : Obligations.UpdateBitsFoldsTheBits := by
  unfold Obligations.UpdateBitsFoldsTheBits
  refine ⟨fun _ _ _ => ⟨rfl, refusedUnlessReady rfl⟩, fun s r v n h hs hn => ?next, fun _ v hn => decode_updateBits_count hn v,
    by decide +kernel, by decide +kernel⟩
  case next =>
    have hr := hs.ready h
    refine ⟨exec_updateBits h hr v n, fun hrefin => foldBits_reflected hrefin .., fun hrefin => foldBits_direct hrefin ..,
      foldBits_zero .., ?ignored, ?byte⟩
    case ignored => rw [exec_updateBits h hr, exec_updateBits h hr, foldBits, foldBits, dataBits_mask _ v hn]
    case byte =>
      rw [exec_updateBits h hr, exec_update h hr, hr.legal.foldByte_eq_foldBits hr.reg, foldBits, foldBits, dataBits_lowByte]

end Sys2Proof.Machine
end

section
/-! SUPPORT. Runs of updates (spec/44_engine_operations.md R210 to R218): a run of any mixture of UPDATE and UPDATE_BITS folds the bits of all of
them in order; UPDATE_BYTES is such a run, and CALC, CALC_BITS, reuse and block splitting are a Fresh engine, a run and FINALIZE. -/

namespace Sys2Proof.Machine

/-! ### Commands one after another -/

theorem execAll_cons_of_next {i : Instr} {s t : State} (h : exec i s = .next t) (is : List Instr) :
    execAll (i :: is) s = execAll is t := by rw [execAll, h]

theorem execAll_singleton {i : Instr} {s t : State} (h : exec i s = .next t) : execAll [i] s = .next t :=
  execAll_cons_of_next h []

theorem execAll_append_of_next {is : List Instr} {s t : State} (h : execAll is s = .next t) (js : List Instr) :
    execAll (is ++ js) s = execAll js t := by
  induction is generalizing s with
  | nil => cases h; rfl
  | cons i is ih =>
    cases hi : exec i s with
    | next u =>
      rw [execAll_cons_of_next hi] at h
      rw [List.cons_append, execAll_cons_of_next hi]
      exact ih h
    | fault e | refused e =>
      rw [execAll, hi] at h
      contradiction

/-! ### A run of updates -/

/-- The bits a list of commands adds to the message, in fold order. -/
def messageOf (refin : Bool) (is : List Instr) : List Bool := (is.map (messageBits refin)).flatten

@[simp] theorem messageOf_nil (refin : Bool) : messageOf refin [] = [] := rfl
@[simp] theorem messageOf_cons (refin : Bool) (i : Instr) (is : List Instr) :
    messageOf refin (i :: is) = messageBits refin i ++ messageOf refin is := rfl

/-- UPDATE and UPDATE_BITS alike fold the bits they carry. -/
theorem exec_isUpdate {s : State} {r : Ready} (h : s.block = .ready r) (hr : r.Inv) {i : Instr} (hi : i.isUpdate = true) :
    exec i s = .next (respond .ok 0 (setReady (r.accumulate (foldSeq r.cfg r.reg (messageBits r.cfg.refin i))) s)) := by
  cases i with
  | update b =>
    rw [exec_update h hr, hr.legal.foldByte_eq_foldBits hr.reg]
    rfl
  | updateBits v n => exact exec_updateBits h hr v n
  | configure | getEngine | finalize | read | bitsRev => contradiction

/-- The elements of state R after a run of updates: all that is written is the engine, and by no update nothing is. -/
def Ready.afterUpdates (r : Ready) (is : List Instr) : Ready :=
  { r with reg := foldSeq r.cfg r.reg (messageOf r.cfg.refin is), phase := if is = [] then r.phase else .accumulating }

@[simp] theorem Ready.afterUpdates_nil (r : Ready) : r.afterUpdates [] = r := rfl

theorem Ready.afterUpdates_cons (r : Ready) (i : Instr) (is : List Instr) :
    r.afterUpdates (i :: is) = (r.accumulate (foldSeq r.cfg r.reg (messageBits r.cfg.refin i))).afterUpdates is := by
  simp [Ready.afterUpdates, Ready.accumulate, foldSeq_append]

/-- The state after a run of updates: one response each, OK, 0. -/
def State.afterUpdates (s : State) (r : Ready) (is : List Instr) : State :=
  { s with block := .ready (r.afterUpdates is), responses := s.responses ++ List.replicate is.length { status := .ok, data := 0 } }

@[simp] theorem State.afterUpdates_block (s : State) (r : Ready) (is : List Instr) :
    (s.afterUpdates r is).block = .ready (r.afterUpdates is) := rfl

theorem State.afterUpdates_nil {s : State} {r : Ready} (h : s.block = .ready r) : s.afterUpdates r [] = s := by
  simp [State.afterUpdates, ← h]

theorem State.afterUpdates_cons (s : State) (r : Ready) (i : Instr) (is : List Instr) :
    s.afterUpdates r (i :: is) =
      (respond .ok 0 (setReady (r.accumulate (foldSeq r.cfg r.reg (messageBits r.cfg.refin i))) s)).afterUpdates
        (r.accumulate (foldSeq r.cfg r.reg (messageBits r.cfg.refin i))) is := by
  simp [State.afterUpdates, Ready.afterUpdates_cons, respond, setReady, List.replicate_succ]

theorem execAll_isUpdate {s : State} {r : Ready} (h : s.block = .ready r) (hr : r.Inv) {is : List Instr}
    (his : ∀ i ∈ is, i.isUpdate = true) : execAll is s = .next (s.afterUpdates r is) := by
  induction is generalizing s r with
  | nil => rw [State.afterUpdates_nil h, execAll]
  | cons i is ih =>
    obtain ⟨hi, his⟩ := List.forall_mem_cons.1 his
    rw [execAll_cons_of_next (exec_isUpdate h hr hi), State.afterUpdates_cons]
    exact ih rfl (hr.accumulate (hr.legal.foldSeq_fits hr.reg _)) his

/-- A run of updates and FINALIZE: the output transform of the fold, and a Fresh engine. -/
theorem execAll_isUpdate_finalize {s : State} {r : Ready} (h : s.block = .ready r) (hr : r.Inv) {is : List Instr}
    (his : ∀ i ∈ is, i.isUpdate = true) :
    execAll (is ++ [.finalize]) s = .next (respond .ok (final r.cfg (foldSeq r.cfg r.reg (messageOf r.cfg.refin is)))
      (setReady r.makeFresh (s.afterUpdates r is))) := by
  rw [execAll_append_of_next (execAll_isUpdate h hr his)]
  exact execAll_singleton (exec_finalize (State.afterUpdates_block s r is))

/-! ### UPDATE_BYTES -/

@[simp] theorem updateBytes_length (bs : List Byte) : (updateBytes bs).length = bs.length := List.length_map ..

theorem updateBytes_eq_nil {bs : List Byte} : updateBytes bs = [] ↔ bs = [] := List.map_eq_nil_iff

theorem isUpdate_of_mem_updateBytes {bs : List Byte} : ∀ i ∈ updateBytes bs, i.isUpdate = true :=
  List.forall_mem_map.2 fun _ _ => rfl

/-- Bytes are folded bit by bit (R124, R192). -/
theorem Cfg.Legal.foldSeq_updateBytes {cfg : Cfg} (h : cfg.Legal) {c : Word} (hc : Fits c cfg.bits) (bs : List Byte) :
    foldSeq cfg c (messageOf cfg.refin (updateBytes bs)) = foldBytes cfg c bs := by
  induction bs generalizing c with
  | nil => rfl
  | cons b bs ih =>
    have hbyte : foldSeq cfg c (messageBits cfg.refin (.update b)) = foldByte cfg c b := (h.foldByte_eq_foldBits hc b).symm
    rw [updateBytes, List.map_cons, messageOf_cons, foldSeq_append, hbyte, foldBytes_cons]
    exact ih (h.foldByte_fits hc b)

/-- Both sides are the characters' codes as bytes, so UPDATE_STR's bytes are these. -/
theorem asciiBytes_eq_of_codes {text : List Char} {bs : List Byte} (h : bs.map BitVec.toNat = text.map Char.toNat) :
    asciiBytes text = bs := by
  have hbyte : BitVec.ofNat 8 ∘ BitVec.toNat = (id : Byte → Byte) := funext fun b => BitVec.ofNat_toNat 8 b
  calc asciiBytes text
    _ = (text.map Char.toNat).map (BitVec.ofNat 8) := by rw [asciiBytes, List.map_map]; rfl
    _ = (bs.map BitVec.toNat).map (BitVec.ofNat 8) := by rw [h]
    _ = bs := by rw [List.map_map, hbyte, List.map_id]

/-- Settles O54: UPDATE_BYTES is a run of updates, and its bits are folded as its bytes. -/
theorem updateBytesFoldsTheBytes : Obligations.UpdateBytesFoldsTheBytes := by
  unfold Obligations.UpdateBytesFoldsTheBytes
  refine ⟨fun text bs s _ hcodes => ?text, fun s r bs h hs => ?bytes⟩
  case text => rw [assemble, assemble, asciiBytes_eq_of_codes hcodes]
  case bytes =>
    have hr := hs.ready h
    rw [assemble, execAll_isUpdate h hr isUpdate_of_mem_updateBytes, State.afterUpdates, Ready.afterUpdates, updateBytes_length,
      hr.legal.foldSeq_updateBytes hr.reg]
    simp only [updateBytes_eq_nil]

/-! ### CALC and CALC_BITS -/

/-- Settles O55: GET_ENGINE makes the engine Fresh, and FINALIZE answers the fold of the bytes from INITEFF. -/
theorem calcAnswersTheCrc : Obligations.CalcAnswersTheCrc := by
  unfold Obligations.CalcAnswersTheCrc
  intro s r bs h hs
  have hr := (hs.ready h).makeFresh
  have hrun := execAll_isUpdate_finalize (s := respond .ok 0 (setReady r.makeFresh s)) rfl hr
    (isUpdate_of_mem_updateBytes (bs := bs))
  rw [hr.legal.foldSeq_updateBytes hr.reg] at hrun
  rw [assemble, calcBytes, List.append_assoc, List.singleton_append, execAll_cons_of_next (exec_getEngine h), hrun]
  simp [respond, setReady, State.afterUpdates, Ready.makeFresh, crcOf, List.replicate_succ]

/-- Settles O56: the same with one UPDATE_BITS; of no bits it is the CRC of INITEFF. -/
theorem calcBitsAnswersTheCrc : Obligations.CalcBitsAnswersTheCrc := by
  unfold Obligations.CalcBitsAnswersTheCrc
  intro s r v n h hs _
  refine ⟨?run, ?empty⟩
  case run =>
    have hr := (hs.ready h).makeFresh
    have hone : ∀ i ∈ [Instr.updateBits v n], i.isUpdate = true := List.forall_mem_singleton.2 rfl
    have hrun := execAll_isUpdate_finalize (s := respond .ok 0 (setReady r.makeFresh s)) rfl hr hone
    have hmessage : messageOf r.makeFresh.cfg.refin [.updateBits v n] = dataBits r.cfg.refin v n := List.append_nil _
    rw [hmessage] at hrun
    rw [assemble, calcBits, execAll_cons_of_next (exec_getEngine h)]
    refine hrun.trans ?_
    simp [respond, setReady, State.afterUpdates, Ready.makeFresh, crcOfBits, foldBits]
  case empty => rw [crcOfBits, foldBits_zero, crcOf_nil]

/-! ### Block splitting and reuse -/

/-- From a Fresh engine, a run of updates and FINALIZE has as its last response the output transform of the fold from INITEFF. -/
theorem lastResponse_of_fresh {s : State} {r : Ready} (h : s.block = .ready r) (hs : s.Inv) (hfresh : r.phase = .fresh)
    {is : List Instr} (his : ∀ i ∈ is, i.isUpdate = true) : ∃ u : State, execAll (is ++ [.finalize]) s = .next u ∧
      u.lastResponse = some
        { status := .ok, data := final r.cfg (foldSeq r.cfg r.cfg.initeff (messageOf r.cfg.refin is)) } := by
  have hr := hs.ready h
  rw [← hr.fresh hfresh]
  exact ⟨_, execAll_isUpdate_finalize h hr his, List.getLast?_concat⟩

/-- From a Fresh engine, UPDATE_BYTES and FINALIZE answer the bytes' CRC. -/
theorem lastResponse_updateBytes_of_fresh {s : State} {r : Ready} (h : s.block = .ready r) (hs : s.Inv) (hfresh : r.phase = .fresh)
    (bs : List Byte) : ∃ u : State, execAll (updateBytes bs ++ [.finalize]) s = .next u ∧
      u.lastResponse = some { status := .ok, data := crcOf r.cfg bs } := by
  have hlegal := (hs.ready h).legal
  rw [crcOf, ← hlegal.foldSeq_updateBytes hlegal.initeff_fits]
  exact lastResponse_of_fresh h hs hfresh isUpdate_of_mem_updateBytes

/-- Settles O58: pieces of bytes expand to the same commands as the whole; a mixture of updates folds its bits in order. -/
theorem blockSplitting : Obligations.BlockSplitting := by
  unfold Obligations.BlockSplitting
  intro s r h hs hfresh
  refine ⟨fun pieces => ?pieces, fun is his => lastResponse_of_fresh h hs hfresh fun i hi => (his i hi).1⟩
  case pieces =>
    have hwhole : (pieces.map updateBytes).flatten = updateBytes pieces.flatten := List.map_flatten.symm
    rw [hwhole]
    exact lastResponse_updateBytes_of_fresh h hs hfresh pieces.flatten

/-- A command of state R that makes the engine Fresh does so wherever it leaves the block in R. -/
theorem fresh_of_whenReady_makeFresh {s t : State} {r : Ready} {run : Ready → State} (h : whenReady s run = .next t)
    (hrun : ∀ q, (run q).block = .ready q.makeFresh) (ht : t.block = .ready r) : r.phase = .fresh := by
  obtain ⟨hs, rfl⟩ | ⟨q, -, rfl⟩ | ⟨_, hs, rfl⟩ := whenReady_cases h
  · rw [refuseState_block, hs] at ht
    contradiction
  · rw [hrun] at ht
    cases ht
    rfl
  · rw [refuseConfig_block, hs] at ht
    contradiction

theorem unconfigured_of_needsReady {s t : State} {i : Instr} (hi : i.needsReady = true) (hs : s.block = .unconfigured)
    (h : exec i s = .next t) : t.block = .unconfigured := by
  rw [(refusedUnlessReady hi s).1 hs] at h
  cases h
  exact hs

/-- Only a successful CONFIGURE takes a block from U to R, and it leaves the engine Fresh. -/
theorem fresh_of_unconfigured {s t : State} {r : Ready} {i : Instr} (hs : s.block = .unconfigured) (h : exec i s = .next t)
    (ht : t.block = .ready r) : r.phase = .fresh := by
  have hgated (hi : i.needsReady = true) : r.phase = .fresh := by
    rw [unconfigured_of_needsReady hi hs h] at ht
    contradiction
  cases i with
  | configure ri ro cp sh n p q x k =>
    rw [exec_configure hs] at h
    cases h
    obtain ⟨-, e⟩ | ⟨-, -, -, e⟩ | ⟨-, -, e⟩ := configureBlock_cases ri ro cp sh n p q x k s <;> rw [e] at ht <;> cases ht
    rfl
  | bitsRev v n =>
    cases h
    rw [respond_block, hs] at ht
    contradiction
  | getEngine | update | updateBits | finalize | read => exact hgated rfl

/-- Settles O57: each of the three leaves a Fresh engine and the invariant, and that is all the CRC depends on. -/
theorem engineReuseReproducesTheCrc : Obligations.EngineReuseReproducesTheCrc := by
  unfold Obligations.EngineReuseReproducesTheCrc
  intro s t r i bs hs h ht hcommand
  refine lastResponse_updateBytes_of_fresh ht (exec_keeps_inv hs i h) ?_ bs
  obtain rfl | rfl | hu := hcommand
  · exact fresh_of_whenReady_makeFresh h (fun _ => rfl) ht
  · exact fresh_of_whenReady_makeFresh h (fun _ => rfl) ht
  · exact fresh_of_unconfigured hu h ht

end Sys2Proof.Machine
end

section
/-! SUPPORT. Reflection symmetry (spec/44_engine_operations.md R216): the mirror law between two configurations that agree but in REFIN. -/

namespace Sys2Proof.Machine

/-- The reversed bits upward are the bits downward. -/
theorem bitsUp_bitsRev (v : Word) {n : Nat} (hn : n ≤ 64) : bitsUp (bitsRev v n) n = bitsDown v n :=
  List.map_congr_left fun _ hi => getLsbD_bitsRev_of_lt v hn (List.mem_range.1 hi)

/-- A direct step reads the width, the mask and POLY alone. -/
theorem Cfg.Legal.stepD_congr {a b : Cfg} (ha : a.Legal) (hb : b.Legal) (hbits : a.bits = b.bits) (hpoly : a.poly = b.poly) :
    stepD a = stepD b := by
  have hmask : a.mask = b.mask := by rw [ha.mask, hb.mask, hbits]
  funext c d
  rw [stepD, stepD, hmask, hbits, hpoly]

theorem foldSeq_reflected {cfg : Cfg} (hr : cfg.refin = true) (c : Word) (ds : List Bool) :
    foldSeq cfg c ds = ds.foldl (stepR cfg) c := by
  have : stepBit cfg = stepR cfg := funext₂ fun c d => if_pos hr
  rw [foldSeq, this]

theorem foldSeq_direct {cfg : Cfg} (hr : cfg.refin = false) (c : Word) (ds : List Bool) :
    foldSeq cfg c ds = ds.foldl (stepD cfg) c := by
  have : stepBit cfg = stepD cfg := funext₂ fun c d => by rw [stepBit, hr, if_neg Bool.false_ne_true]
  rw [foldSeq, this]

section
variable {a b : Cfg} (ha : a.Legal) (hb : b.Legal) (hra : a.refin = true) (hrb : b.refin = false)
  (hbits : a.bits = b.bits)
include ha hb hra hrb hbits

/-- Exactly one of the two reverses its register at the output, so a register and its reversal give one CRC. -/
theorem final_bitsRev (hrefout : a.refout = b.refout) (hxorout : a.xorout = b.xorout) {c : Word} (hc : Fits c a.bits) :
    final a (bitsRev c a.bits) = final b c := by
  rw [ha.final_eq (fits_bitsRev c ha.width.2), hb.final_eq (hbits ▸ hc), hra, hrb, hrefout, hxorout, ← hbits]
  cases b.refout with
  | true => rfl
  | false =>
    rw [if_pos Bool.false_ne_true.symm, bitsRev_bitsRev ha.width.2 hc]
    rfl

variable (hpoly : a.poly = b.poly)
include hpoly

/-- Raw registers: reflected input over the reversed bits is the reversal of direct input. -/
theorem foldBits_bitsRev (c v : Word) {n : Nat} (hn : n ≤ 64) :
    foldBits a (bitsRev c a.bits) (bitsRev v n) n = bitsRev (foldBits b c v n) a.bits := by
  rw [foldBits_reflected hra, foldBits_direct hrb, bitsUp_bitsRev v hn, foldSeq_reflected hra, foldSeq_direct hrb,
    ha.foldl_stepR_bitsRev, ha.stepD_congr hb hbits hpoly]

end

/-- Settles O59: the registers by the mirror law, the CRCs by the output transform of the registers from INITEFF. -/
theorem reflectionSymmetry : Obligations.ReflectionSymmetry := by
  unfold Obligations.ReflectionSymmetry
  intro a b ha hb hra hrb hbits hpoly hrefout hinit hxorout v n hn
  refine ⟨?crc, fun c _ => foldBits_bitsRev ha hb hra hrb hbits hpoly c v hn⟩
  case crc =>
    have hia : a.initeff = bitsRev b.initeff a.bits := by
      rw [ha.initeff, hb.initeff, initialRegister, initialRegister, if_pos hra, hrb, if_neg Bool.false_ne_true, hinit]
    have hfit : Fits (foldBits b b.initeff v n) a.bits := hbits ▸ hb.foldSeq_fits hb.initeff_fits _
    rw [crcOfBits, crcOfBits, hia, foldBits_bitsRev ha hb hra hrb hbits hpoly _ v hn]
    exact final_bitsRev ha hb hra hrb hbits hrefout hxorout hfit

end Sys2Proof.Machine
end

section
/-! SUPPORT. The refusals and the configuration error (spec/60_exceptions.md R231 to R237): CONFIGURE's two failures, and the answers of the gate
to a command in the wrong block state. -/

namespace Sys2Proof.Machine

/-! ### The configuration error -/

/-- The width is tested first: an illegal one is the first cause, whatever the check (R233). -/
theorem configureBlock_of_not_legalWidth (ri ro cp : Bool) (sh : Shape) {n : Nat} (h : ¬(1 ≤ n ∧ n ≤ 64)) (p i x k : Word) (s : State) :
    configureBlock ri ro cp sh n p i x k s = raiseConfigError .cfgBits s :=
  if_neg (mt (legalWidth_iff n).1 h)

/-- Of CONFIGURE's three ways a legal width excludes the first, a supplied wrong check value the third. -/
theorem configureBlock_of_wrong_check (ri ro : Bool) (sh : Shape) {n : Nat} (h1 : 1 ≤ n) (h64 : n ≤ 64) (p i x : Word) {k : Word}
    (hk : k ≠ crcOf (makeCfg ri ro sh n p i x) Config.checkString) (s : State) :
    configureBlock ri ro true sh n p i x k s = raiseConfigError .cfgCheck s := by
  obtain ⟨hw, -⟩ | ⟨-, -, -, e⟩ | ⟨-, hright, -⟩ := configureBlock_cases ri ro true sh n p i x k s
  · rw [(legalWidth_iff n).2 ⟨h1, h64⟩] at hw
    contradiction
  · exact e
  · exact absurd ((hright rfl).trans (readyFrom_check (makeCfg_legal ri ro sh h1 h64 p i x))) hk

/-- Settles O42: in U CONFIGURE runs, and its two failures are told apart by the width. -/
theorem configurationErrorEntry : Obligations.ConfigurationErrorEntry := by
  unfold Obligations.ConfigurationErrorEntry
  intro s refin refout cp shape bits poly init xorout check hs
  rw [exec_configure hs]
  refine ⟨fun hbits => ?illegalWidth, fun h1 h64 hcp hcheck => ?wrongCheck⟩
  case illegalWidth =>
    have hwidth : ¬(1 ≤ bits ∧ bits ≤ 64) := by omega
    rw [configureBlock_of_not_legalWidth refin refout cp shape hwidth]
    rfl
  case wrongCheck =>
    rw [hcp, configureBlock_of_wrong_check refin refout shape h1 h64 poly init xorout hcheck]
    rfl

/-! ### The refusals -/

theorem exec_configure_ready {s : State} {r : Ready} (hs : s.block = .ready r) (ri ro cp : Bool) (sh : Shape) (n : Nat) (p i x k : Word) :
    exec (.configure ri ro cp sh n p i x k) s = .next (refuseState s) :=
  whenUnconfigured_ready hs _

theorem exec_configure_configError {s : State} {c : Cause} (hs : s.block = .configError c) (ri ro cp : Bool) (sh : Shape) (n : Nat)
    (p i x k : Word) : exec (.configure ri ro cp sh n p i x k) s = .next (refuseConfig c s) :=
  whenUnconfigured_configError hs _

/-- Settles O6: both gates answer ERR_STATE where the block state is the other's. -/
theorem wrongStateIsRefused : Obligations.WrongStateIsRefused := by
  unfold Obligations.WrongStateIsRefused
  refine ⟨fun s i hs hi => (refusedUnlessReady hi s).1 hs, ?configureInReady⟩
  case configureInReady =>
    intro s r refin refout cp shape bits poly init xorout check hs
    exact exec_configure_ready hs refin refout cp shape bits poly init xorout check

/-- Settles O7: every command but BITS_REV stands behind one of the two gates, and in E both answer ERR_CONFIG with CAUSE. -/
theorem errorStateRefusesEveryOtherCommand : Obligations.ErrorStateRefusesEveryOtherCommand := by
  unfold Obligations.ErrorStateRefusesEveryOtherCommand
  intro s cause i hs hi
  cases i with
  | configure ri ro cp sh n p q x k => exact exec_configure_configError hs ri ro cp sh n p q x k
  | bitsRev v n => exact absurd rfl (hi v n)
  | getEngine | update | updateBits | finalize | read => exact (refusedUnlessReady rfl s).2 cause hs

end Sys2Proof.Machine
end

section
/-! SUPPORT. Silent truncation (spec/70_reset_and_hazards.md R268): what CONFIGURE and the two counted commands do not read of their operands. -/

namespace Sys2Proof.Machine

/-! ### CONFIGURE -/

/-- The tentative configuration holds its three operands masked, and masking twice is masking once. -/
theorem makeCfg_masked (ri ro : Bool) (sh : Shape) (n : Nat) (p i x : Word) :
    makeCfg ri ro sh n (p &&& lowMask n) (i &&& lowMask n) (x &&& lowMask n) = makeCfg ri ro sh n p i x := by
  have hmask (v : Word) : v &&& lowMask n &&& lowMask n = v &&& lowMask n := by rw [BitVec.and_assoc, BitVec.and_self]
  simp only [makeCfg, hmask]

theorem configureBlock_masked (ri ro cp : Bool) (sh : Shape) (n : Nat) (p i x k : Word) (s : State) :
    configureBlock ri ro cp sh n (p &&& lowMask n) (i &&& lowMask n) (x &&& lowMask n) k s = configureBlock ri ro cp sh n p i x k s := by
  rw [configureBlock, configureBlock, makeCfg_masked]

/-- The check field is read only when it is supplied. -/
theorem configureBlock_check_absent (ri ro : Bool) (sh : Shape) (n : Nat) (p i x k k' : Word) (s : State) :
    configureBlock ri ro false sh n p i x k s = configureBlock ri ro false sh n p i x k' s := by
  simp only [configureBlock, Bool.false_and]

/-- In every block state CONFIGURE reads its operands through `configureBlock` alone. -/
theorem exec_configure_congr {s : State} {ri ro cp : Bool} {sh : Shape} {n : Nat} {p i x k p' i' x' k' : Word}
    (h : configureBlock ri ro cp sh n p i x k s = configureBlock ri ro cp sh n p' i' x' k' s) :
    exec (.configure ri ro cp sh n p i x k) s = exec (.configure ri ro cp sh n p' i' x' k') s :=
  congrArg (whenUnconfigured s) h

/-- A CRC has the width of its configuration, so no over-wide value is one. -/
theorem Cfg.Legal.ne_crcOf_of_overwide {cfg : Cfg} (h : cfg.Legal) {k : Word} (hk : 2 ^ cfg.bits ≤ k.toNat) (bs : List Byte) :
    k ≠ crcOf cfg bs := by
  rintro rfl
  exact Nat.not_lt_of_le hk (h.final_fits _)

/-! ### The counted commands -/

theorem foldBits_mask (cfg : Cfg) (c v : Word) {n : Nat} (hn : n ≤ 64) : foldBits cfg c (v &&& lowMask n) n = foldBits cfg c v n := by
  rw [foldBits, foldBits, dataBits_mask _ v hn]

theorem exec_bitsRev_mask (s : State) (v : Word) {n : Nat} (hn : n ≤ 64) :
    exec (.bitsRev (v &&& lowMask n) n) s = exec (.bitsRev v n) s := by
  change execBitsRev (v &&& lowMask n) n s = execBitsRev v n s
  rw [execBitsRev, execBitsRev, bitsRev_mask v hn]

/-- Outside R the value is not read at all; in R only its low n bits are folded. -/
theorem exec_updateBits_mask {s : State} (hs : s.Inv) (v : Word) {n : Nat} (hn : n ≤ 64) :
    exec (.updateBits (v &&& lowMask n) n) s = exec (.updateBits v n) s := by
  have hrefused (w : Word) : RefusedUnlessReady (.updateBits w n) := refusedUnlessReady rfl
  cases hblock : s.block with
  | unconfigured => rw [(hrefused _ s).1 hblock, (hrefused _ s).1 hblock]
  | configError cause => rw [(hrefused _ s).2 cause hblock, (hrefused _ s).2 cause hblock]
  | ready r =>
    have hr := hs.ready hblock
    rw [exec_updateBits hblock hr, exec_updateBits hblock hr, foldBits_mask _ _ v hn]

/-- Settles O43: operands and counted values are read through masks, an absent check not at all; a supplied check is compared with a CRC, which
has the width. -/
theorem overwideOperandsAreDropped : Obligations.OverwideOperandsAreDropped := by
  unfold Obligations.OverwideOperandsAreDropped
  intro s refin refout cp shape bits poly init xorout check other h1 h64
  refine ⟨?masked, ?absent, fun hs hover => ?compared, fun v n hn => ⟨?bitsRev, fun hinv => ?updateBits⟩⟩
  case masked => exact exec_configure_congr (configureBlock_masked ..).symm
  case absent => exact exec_configure_congr (configureBlock_check_absent ..)
  case compared =>
    have hlegal : (makeCfg refin refout shape bits poly init xorout).Legal := makeCfg_legal refin refout shape h1 h64 poly init xorout
    rw [exec_configure hs, configureBlock_of_wrong_check refin refout shape h1 h64 poly init xorout (hlegal.ne_crcOf_of_overwide hover _)]
    rfl
  case bitsRev => exact (exec_bitsRev_mask s v hn).symm
  case updateBits => exact (exec_updateBits_mask hinv v hn).symm

end Sys2Proof.Machine
end

section
/-! SUPPORT. Legal frames are the encodings of well-formed commands (spec/30_encoding.md R80), and an illegal one is so by the
first of the six conditions of R79 that it meets. -/

namespace Sys2Proof

/-! ### A legal frame is an encoding -/

theorem Opcode.ofCode_eq_some_iff {b : Byte} {o : Opcode} : Opcode.ofCode b = some o ↔ b = o.code :=
  ⟨Opcode.code_of_ofCode, fun h => h ▸ Opcode.ofCode_code o⟩

/-- A frame that decodes has passed R79 (1) to (3): it begins with an opcode, whose length it has. -/
theorem exists_operands_of_decode {f : Frame} {i : Instr} (h : decode f = .ok i) :
    ∃ o operands, f = .whole (o.code :: operands) ∧ 8 * (operands.length + 1) = o.frameBits ∧ decodeOperands o operands = .ok i := by
  unfold decode at h
  split at h
  case h_1 | h_2 => contradiction
  case h_3 opByte operands =>
    split_ifs at h
    split at h
    case h_1 => contradiction
    case h_2 o ho =>
      split_ifs at h with hlen
      exact ⟨o, operands, by rw [Opcode.code_of_ofCode ho], hlen, h⟩

/-- CONFIGURE's 32 value bytes that were read are the ones it writes (R76). -/
theorem bytesOfWord_valueFields {values : List Byte} (h : values.length = 32) :
    bytesOfWord (wordOfBytes (values.take 8)) ++ bytesOfWord (wordOfBytes ((values.drop 8).take 8)) ++
      bytesOfWord (wordOfBytes ((values.drop 16).take 8)) ++ bytesOfWord (wordOfBytes (values.drop 24)) = values := by
  have hcut (k : Nat) : (values.drop k).take 8 ++ values.drop (k + 8) = values.drop k := by
    rw [← List.drop_drop, List.take_append_drop]
  rw [bytesOfWord_wordOfBytes (by simp [h]), bytesOfWord_wordOfBytes (by simp [h]), bytesOfWord_wordOfBytes (by simp [h]),
    bytesOfWord_wordOfBytes (by simp [h]), List.append_assoc, hcut 16, List.append_assoc, hcut 8, List.take_append_drop]

/-- CONFIGURE writes the operand bytes it was read from (R76, R77). -/
theorem decodeConfigure_ok {ctl bitsf : Byte} {values : List Byte} {i : Instr} (hlen : values.length = 32)
    (h : decodeConfigure ctl bitsf values = .ok i) :
    i.wf = true ∧ i.opcode = .configure ∧ i.operandBytes = ctl :: bitsf :: values := by
  unfold decodeConfigure at h
  split_ifs at h with hreserved
  split at h
  case h_1 => contradiction
  case h_2 shape hshape =>
    cases h
    have hctl := controlByte_of_fields (not_not.1 hreserved) (Shape.code_of_ofCode hshape)
    refine ⟨decide_eq_true bitsf.isLt, rfl, ?_⟩
    rw [Instr.operandBytes, hctl, BitVec.ofNat_toNat, BitVec.setWidth_eq, bytesOfWord_valueFields hlen]

/-- The same of a format-V command, whose count is in range (R75). -/
theorem decodeCounted_ok {make : Word → Nat → Instr} {o : Opcode} {n : Byte} {value : List Byte} {i : Instr}
    (hlen : value.length = 8) (h : decodeCounted make n value = .ok i)
    (hmake : ∀ v n, (make v n).wf = WellFormed.count n ∧ (make v n).opcode = o ∧
      (make v n).operandBytes = .ofNat 8 n :: bytesOfWord v) :
    i.wf = true ∧ i.opcode = o ∧ i.operandBytes = n :: value := by
  unfold decodeCounted at h
  split_ifs at h with hn
  cases h
  obtain ⟨hwf, hopcode, hbytes⟩ := hmake (wordOfBytes value) n.toNat
  exact ⟨hwf.trans (decide_eq_true (Nat.le_of_not_lt hn)), hopcode,
    by rw [hbytes, BitVec.ofNat_toNat, BitVec.setWidth_eq, bytesOfWord_wordOfBytes hlen]⟩

theorem decodeRead_ok {sel : Byte} {i : Instr} (h : decodeRead sel = .ok i) :
    i.wf = true ∧ i.opcode = .read ∧ i.operandBytes = [sel] := by
  unfold decodeRead at h
  split at h
  case h_1 => contradiction
  case h_2 s hs =>
    cases h
    exact ⟨rfl, rfl, by rw [Instr.operandBytes, Selector.code_of_ofCode hs]⟩

/-- In a frame of the opcode's length, each format's operands are written as they were read. -/
theorem operandBytes_of_decodeOperands {o : Opcode} {operands : List Byte} {i : Instr}
    (hlen : 8 * (operands.length + 1) = o.frameBits) (h : decodeOperands o operands = .ok i) :
    i.wf = true ∧ i.opcode = o ∧ i.operandBytes = operands := by
  unfold decodeOperands at h
  split at h
  case h_1 ctl bitsf values => 
    have : values.length = 32 := by simp [Opcode.frameBits] at hlen; omega
    exact decodeConfigure_ok this h
  case h_2 | h_3 | h_5 => cases h; exact ⟨rfl, rfl, rfl⟩
  case h_4 n value | h_7 n value =>
    have hvalue : value.length = 8 := by simp [Opcode.frameBits] at hlen; omega
    exact decodeCounted_ok hvalue h fun _ _ => ⟨rfl, rfl, rfl⟩
  case h_6 sel => exact decodeRead_ok h
  case h_8 => contradiction

/-- The other direction of the round trip. -/
theorem encode_of_decode {f : Frame} {i : Instr} (h : decode f = .ok i) : i.wf = true ∧ encode i = f := by
  obtain ⟨o, operands, rfl, hlen, hoperands⟩ := exists_operands_of_decode h
  obtain ⟨hwf, hopcode, hbytes⟩ := operandBytes_of_decodeOperands hlen hoperands
  exact ⟨hwf, by rw [encode, hopcode, hbytes]⟩

/-- Settles O17: the opcode byte and the operand bytes of a legal frame are those its command writes. -/
theorem encodeOfDecode : Obligations.EncodeOfDecode := by
  unfold Obligations.EncodeOfDecode
  exact fun _ _ => encode_of_decode

/-! ### Illegal frames -/

theorem legalLength_iff (n : Nat) : legalLength n = true ↔ n = 8 ∨ n = 16 ∨ n = 80 ∨ n = 280 := by
  simp [legalLength, or_assoc]

/-- Everything the decoder can say of a frame, by the first test that it fails. -/
theorem decode_cases (b : Byte) (rest : List Byte) :
    let f := Frame.whole (b :: rest)
    (legalLength f.len = false ∧ decode f = .error .length) ∨
    (legalLength f.len = true ∧ Opcode.ofCode b = none ∧ decode f = .error .opcode) ∨
    (∃ o, legalLength f.len = true ∧ Opcode.ofCode b = some o ∧ f.len ≠ o.frameBits ∧ decode f = .error .lengthForOpcode) ∨
    (∃ o, Opcode.ofCode b = some o ∧ f.len = o.frameBits ∧ decode f = decodeOperands o rest) := by
  simp only [Frame.len, List.length_cons]
  cases hlegal : legalLength (8 * (rest.length + 1)) with
  | false => exact .inl ⟨rfl, by simp [decode, hlegal]⟩
  | true =>
    cases ho : Opcode.ofCode b with
    | none => exact .inr (.inl ⟨rfl, rfl, by simp [decode, hlegal, ho]⟩)
    | some o =>
      by_cases hlen : 8 * (rest.length + 1) = o.frameBits
      · exact .inr (.inr (.inr ⟨o, rfl, hlen, by simp [decode, ho, hlen, legalLength_frameBits]⟩))
      · exact .inr (.inr (.inl ⟨o, rfl, rfl, hlen, by simp [decode, hlegal, ho, hlen]⟩))

/-- A test that fails refuses by its own condition. -/
theorem error_eq_error_iff {a e : Illegal} {p : Prop} (hp : p) :
    (.error a : Except Illegal Instr) = .error e ↔ e = a ∧ p := by simp [hp, eq_comm]

theorem ok_eq_error_iff {i : Instr} {a e : Illegal} {p : Prop} (hp : ¬p) :
    (.ok i : Except Illegal Instr) = .error e ↔ e = a ∧ p := by simp [hp]

theorem decodeConfigure_error_iff (ctl bitsf : Byte) (values : List Byte) (e : Illegal) :
    decodeConfigure ctl bitsf values = .error e ↔ e = .control ∧ (ctl.extractLsb 7 5 ≠ 0 ∨ ctl.extractLsb 4 3 = 3) := by
  unfold decodeConfigure
  split_ifs with hreserved
  · exact error_eq_error_iff (.inl hreserved)
  · split
    case h_1 hnone => exact error_eq_error_iff (.inr ((Shape.ofCode_none _).1 hnone))
    case h_2 shape hshape =>
      have hdefined : ctl.extractLsb 4 3 ≠ 3 := mt (Shape.ofCode_none _).2 (hshape ▸ Option.some_ne_none shape)
      exact ok_eq_error_iff (not_or.2 ⟨hreserved, hdefined⟩)

theorem decodeCounted_error_iff (make : Word → Nat → Instr) (n : Byte) (value : List Byte) (e : Illegal) :
    decodeCounted make n value = .error e ↔ e = .count ∧ 64 < n.toNat := by
  unfold decodeCounted
  split
  case isTrue hn => exact error_eq_error_iff hn
  case isFalse hn => exact ok_eq_error_iff hn

theorem decodeRead_error_iff (sel : Byte) (e : Illegal) : decodeRead sel = .error e ↔ e = .selector ∧ 0x0C < sel.toNat := by
  rw [← Selector.ofCode_none]
  unfold decodeRead
  split
  case h_1 hnone => exact error_eq_error_iff hnone
  case h_2 s hs => exact ok_eq_error_iff (hs ▸ Option.some_ne_none s)

/-- R79 (4) to (6) of the operands of a frame that has passed (1) to (3). -/
def OperandsIllegal (o : Opcode) (operands : List Byte) : Illegal → Prop
  | .count => (o = .updateBits ∨ o = .bitsRev) ∧ ∃ n v, operands = n :: v ∧ 64 < n.toNat
  | .selector => o = .read ∧ ∃ sel, operands = [sel] ∧ 0x0C < sel.toNat
  | .control => o = .configure ∧ ∃ ctl more, operands = ctl :: more ∧ (ctl.extractLsb 7 5 ≠ 0 ∨ ctl.extractLsb 4 3 = 3)
  | .length => False
  | .opcode => False
  | .lengthForOpcode => False

theorem decodeOperands_error_iff {o : Opcode} {operands : List Byte} (hlen : operands.length + 1 = o.frameBits / 8)
    (e : Illegal) : decodeOperands o operands = .error e ↔ OperandsIllegal o operands e := by
  cases o with
  | configure =>
    match operands, (Nat.succ.inj hlen : operands.length = 34) with
    | ctl :: bitsf :: values, _ =>
      refine (decodeConfigure_error_iff ctl bitsf values e).trans ?_
      cases e <;> simp [OperandsIllegal]
  | getEngine | finalize =>
    match operands, (Nat.succ.inj hlen : operands.length = 0) with
    | [], _ => cases e <;> simp [OperandsIllegal, decodeOperands]
  | update =>
    match operands, (Nat.succ.inj hlen : operands.length = 1) with
    | [b], _ => cases e <;> simp [OperandsIllegal, decodeOperands]
  | read =>
    match operands, (Nat.succ.inj hlen : operands.length = 1) with
    | [sel], _ =>
      refine (decodeRead_error_iff sel e).trans ?_
      cases e <;> simp [OperandsIllegal]
  | updateBits | bitsRev =>
    match operands, (Nat.succ.inj hlen : operands.length = 9) with
    | n :: value, _ =>
      refine (decodeCounted_error_iff _ n value e).trans ?_
      cases e <;> simp [OperandsIllegal]

/-- The condition of R79 as one of a frame's first byte and the rest, the earlier conditions not met. -/
def FrameIllegal (b : Byte) (rest : List Byte) : Illegal → Prop
  | .length => legalLength (Frame.whole (b :: rest)).len = false
  | .opcode => legalLength (Frame.whole (b :: rest)).len = true ∧ Opcode.ofCode b = none
  | .lengthForOpcode => legalLength (Frame.whole (b :: rest)).len = true ∧
      ∃ o, Opcode.ofCode b = some o ∧ (Frame.whole (b :: rest)).len ≠ o.frameBits
  | e => ∃ o, Opcode.ofCode b = some o ∧ (Frame.whole (b :: rest)).len = o.frameBits ∧ OperandsIllegal o rest e

theorem decode_error_iff (b : Byte) (rest : List Byte) (e : Illegal) :
    decode (.whole (b :: rest)) = .error e ↔ FrameIllegal b rest e := by
  obtain ⟨hlen, h⟩ | ⟨hlegal, ho, h⟩ | ⟨o, hlegal, ho, hlen, h⟩ | ⟨o, ho, hlen, h⟩ := decode_cases b rest
  · have hne (o : Opcode) : (Frame.whole (b :: rest)).len ≠ o.frameBits := fun h => by
      rw [h, legalLength_frameBits] at hlen
      contradiction
    rw [h]
    cases e <;> simp [FrameIllegal, hlen, hne]
  · rw [h]
    cases e <;> simp [FrameIllegal, hlegal, ho]
  · rw [h]
    cases e <;> simp [FrameIllegal, hlegal, ho, hlen]
  · have hcount : rest.length + 1 = o.frameBits / 8 := by simp only [Frame.len, List.length_cons] at hlen; omega
    rw [h, decodeOperands_error_iff hcount]
    cases e <;> simp [FrameIllegal, OperandsIllegal, ho, hlen, legalLength_frameBits]

theorem legalLength_eq_false_iff (n : Nat) : legalLength n = false ↔ n ≠ 8 ∧ n ≠ 16 ∧ n ≠ 80 ∧ n ≠ 280 := by
  rw [← Bool.not_eq_true, legalLength_iff]
  tauto

theorem decode_length_iff (f : Frame) : decode f = .error .length ↔ legalLength f.len = false := by
  match f with
  | .ragged bytes extra bits =>
    have hlen : legalLength (8 * bytes.length + extra.val + 1) = false := (legalLength_eq_false_iff _).2 (by omega)
    exact iff_of_true rfl hlen
  | .whole [] => exact iff_of_true rfl rfl
  | .whole (b :: rest) => exact decode_error_iff b rest .length

/-- An illegal operand of one opcode's frame is told by the opcode byte. -/
theorem exists_opcode_iff {b : Byte} {n : Nat} {o₀ : Opcode} {p : Prop} :
    (∃ o, Opcode.ofCode b = some o ∧ n = o.frameBits ∧ o = o₀ ∧ p) ↔ b = o₀.code ∧ n = o₀.frameBits ∧ p := by
  simp [Opcode.ofCode_eq_some_iff]

/-- Settles O18: the conditions are `FrameIllegal`, with the codes and lengths of the opcodes written out. -/
theorem illegalFrameConditions : Obligations.IllegalFrameConditions := by
  unfold Obligations.IllegalFrameConditions
  refine ⟨fun f => (decode_length_iff f).trans (legalLength_eq_false_iff _),
    fun op rest => ⟨?opcode, ?lengthForOpcode, ?count, ?selector, ?control⟩,
    fun s f es e hs hd => Machine.step_illegal hs hd⟩
  case opcode => rw [decode_error_iff, FrameIllegal, legalLength_iff, Opcode.ofCode_none]
  case lengthForOpcode => rw [decode_error_iff, FrameIllegal, legalLength_iff]
  case count =>
    rw [decode_error_iff]
    constructor
    · rintro ⟨o, ho, hlen, rfl | rfl, hn⟩
      · exact ⟨.inl (Opcode.code_of_ofCode ho), hlen, hn⟩
      · exact ⟨.inr (Opcode.code_of_ofCode ho), hlen, hn⟩
    · rintro ⟨rfl | rfl, hlen, hn⟩
      · exact ⟨.updateBits, rfl, hlen, .inl rfl, hn⟩
      · exact ⟨.bitsRev, rfl, hlen, .inr rfl, hn⟩
  case selector => exact (decode_error_iff op rest .selector).trans exists_opcode_iff
  case control => exact (decode_error_iff op rest .control).trans exists_opcode_iff

/-- Settles O19: each frame is the encoding of its command. -/
theorem framesOfTheSpecDecode : Obligations.FramesOfTheSpecDecode := by
  unfold Obligations.FramesOfTheSpecDecode
  exact ⟨decode_encode (i := .getEngine) rfl, decode_encode (i := .finalize) rfl, decode_encode (i := .update 0xFF) rfl,
    decode_encode (i := .read .phase) rfl, decode_encode (i := .updateBits 0xFFFFFFFFFFFFFFFF 64) rfl,
    decode_encode (i := .bitsRev 0xFFFFFFFFFFFFFFF6 4) rfl,
    decode_encode (i := .configure true true true .s16 5 0x05 0x1F 0x1F 0x19) rfl,
    decode_encode (i := .configure false true true .s256 12 0x80F 0 0 0xDAF) rfl⟩

end Sys2Proof
end

section
/-! SUPPORT. What each command does in each block state (spec/60_exceptions.md R239), as the block it leaves and its one answer; and from that
what a step writes: the invariant (spec/10_state.md R24 to R44), BSTATE (R21), and one answer a frame (spec/30_encoding.md R70). -/

namespace Sys2Proof.Machine

/-! ### A command is a block and an answer -/

/-- The state with this block and one more response: all that a command can write. -/
def State.answered (s : State) (b : Block) (a : Response) : State := { s with block := b, responses := s.responses ++ [a] }

@[simp] theorem answered_block (s : State) (b : Block) (a : Response) : (s.answered b a).block = b := rfl
@[simp] theorem answered_stream (s : State) (b : Block) (a : Response) : (s.answered b a).stream = s.stream := rfl
@[simp] theorem answered_responses (s : State) (b : Block) (a : Response) : (s.answered b a).responses = s.responses ++ [a] := rfl
@[simp] theorem answered_hardwired (s : State) (b : Block) (a : Response) : (s.answered b a).hardwired = s.hardwired := rfl

theorem respond_eq_answered {s : State} {b : Block} (h : s.block = b) (st : Status) (d : Word) :
    respond st d s = s.answered b { status := st, data := d } := by
  rw [State.answered, ← h, respond]

/-- The elements of state R after a command. -/
def Ready.after (r : Ready) : Instr → Ready
  | .configure _ _ _ _ _ _ _ _ _ => r
  | .getEngine => r.makeFresh
  | .update b => r.accumulate (fastByte r.cfg r.tables r.reg b)
  | .updateBits v n => r.accumulate (fastFoldBits r.cfg r.tables r.reg v n)
  | .finalize => r.makeFresh
  | .read _ => r
  | .bitsRev _ _ => r

/-- The answer to a command in state R. -/
def Ready.answer (r : Ready) : Instr → Response
  | .configure _ _ _ _ _ _ _ _ _ => { status := .errState, data := 0 }
  | .getEngine => { status := .ok, data := 0 }
  | .update _ => { status := .ok, data := 0 }
  | .updateBits _ _ => { status := .ok, data := 0 }
  | .finalize => { status := .ok, data := final r.cfg r.reg }
  | .read sel => { status := .ok, data := readValue r sel }
  | .bitsRev v n => { status := .ok, data := bitsRev v n }

theorem exec_ready {s : State} {r : Ready} (h : s.block = .ready r) (i : Instr) :
    exec i s = .next (s.answered (.ready (r.after i)) (r.answer i)) := by
  cases i with
  | configure => rw [exec_configure_ready h, refuseState, respond_eq_answered h]; rfl
  | getEngine => exact exec_getEngine h
  | update => exact whenReady_ready h _
  | updateBits => exact whenReady_ready h _
  | finalize => exact exec_finalize h
  | read => rw [exec_read h, respond_eq_answered h]; rfl
  | bitsRev v n => exact congrArg _ (respond_eq_answered h ..)

/-- The answer to a command outside state R where no command but BITS_REV executes. -/
def answerRefusing (refusal : Response) : Instr → Response
  | .bitsRev v n => { status := .ok, data := bitsRev v n }
  | .configure _ _ _ _ _ _ _ _ _ => refusal
  | .getEngine => refusal
  | .update _ => refusal
  | .updateBits _ _ => refusal
  | .finalize => refusal
  | .read _ => refusal

theorem exec_configError {s : State} {c : Cause} (h : s.block = .configError c) (i : Instr) :
    exec i s = .next (s.answered (.configError c) (answerRefusing { status := .errConfig, data := c.code } i)) := by
  cases i with
  | configure => rw [exec_configure_configError h, refuseConfig, respond_eq_answered h]; rfl
  | getEngine | update | updateBits | finalize | read =>
    rw [(refusedUnlessReady rfl s).2 c h, State.answered, ← h]; rfl
  | bitsRev v n => exact congrArg _ (respond_eq_answered h ..)

theorem exec_unconfigured {s : State} (h : s.block = .unconfigured) {i : Instr} (hi : i.opcode ≠ .configure) :
    exec i s = .next (s.answered .unconfigured (answerRefusing { status := .errState, data := 0 } i)) := by
  cases i with
  | configure => exact absurd rfl hi
  | getEngine | update | updateBits | finalize | read =>
    rw [(refusedUnlessReady rfl s).1 h, State.answered, ← h]; rfl
  | bitsRev v n => exact congrArg _ (respond_eq_answered h ..)

/-- CONFIGURE's three ways in U (R186, R231), told apart by the width and the CRC of the check string. -/
theorem configureBlock_outcome (ri ro cp : Bool) (sh : Shape) (n : Nat) (p i x k : Word) :
    (¬(1 ≤ n ∧ n ≤ 64) ∧ ∀ s, configureBlock ri ro cp sh n p i x k s =
      s.answered (.configError .cfgBits) { status := .errConfig, data := 1 }) ∨
    ((1 ≤ n ∧ n ≤ 64) ∧ (cp = true ∧ k ≠ crcOf (makeCfg ri ro sh n p i x) Config.checkString) ∧
      ∀ s, configureBlock ri ro cp sh n p i x k s = s.answered (.configError .cfgCheck) { status := .errConfig, data := 2 }) ∨
    ((1 ≤ n ∧ n ≤ 64) ∧ (cp = true → k = crcOf (makeCfg ri ro sh n p i x) Config.checkString) ∧
      ∀ s, configureBlock ri ro cp sh n p i x k s =
        s.answered (.ready (readyFrom (makeCfg ri ro sh n p i x))) { status := .ok, data := 0 }) := by
  by_cases hwidth : 1 ≤ n ∧ n ≤ 64
  · obtain ⟨h1, h64⟩ := hwidth
    by_cases hk : cp = true → k = crcOf (makeCfg ri ro sh n p i x) Config.checkString
    · exact .inr (.inr ⟨⟨h1, h64⟩, hk, configureBlock_success ri ro sh h1 h64 p i x hk⟩)
    · obtain ⟨rfl, hne⟩ := Classical.not_imp.1 hk
      exact .inr (.inl ⟨⟨h1, h64⟩, ⟨rfl, hne⟩, configureBlock_of_wrong_check ri ro sh h1 h64 p i x hne⟩)
  · exact .inl ⟨hwidth, configureBlock_of_not_legalWidth ri ro cp sh hwidth p i x k⟩

theorem configureBlock_answered (ri ro cp : Bool) (sh : Shape) (n : Nat) (p i x k : Word) :
    ∃ b a, ∀ s, configureBlock ri ro cp sh n p i x k s = s.answered b a := by
  obtain ⟨-, e⟩ | ⟨-, -, e⟩ | ⟨-, -, e⟩ := configureBlock_outcome ri ro cp sh n p i x k
  · exact ⟨_, _, e⟩
  · exact ⟨_, _, e⟩
  · exact ⟨_, _, e⟩

/-- In every block state a command leaves a block and gives an answer that depend on the block alone. -/
theorem exec_answered (i : Instr) (b : Block) : ∃ b' a, ∀ s : State, s.block = b → exec i s = .next (s.answered b' a) := by
  cases b with
  | ready r => exact ⟨_, _, fun _ h => exec_ready h i⟩
  | configError c => exact ⟨_, _, fun _ h => exec_configError h i⟩
  | unconfigured =>
    cases i with
    | configure ri ro cp sh n p q x k =>
      obtain ⟨b', a, e⟩ := configureBlock_answered ri ro cp sh n p q x k
      exact ⟨b', a, fun s h => by rw [exec_configure h, e]⟩
    | getEngine | update | updateBits | finalize | read | bitsRev => exact ⟨_, _, fun _ h => exec_unconfigured h Opcode.noConfusion⟩

/-! ### The outcome table -/

theorem Ready.Inv.after_update {r : Ready} (h : r.Inv) (b : Byte) :
    r.after (.update b) = r.accumulate (foldByte r.cfg r.reg b) := by
  rw [Ready.after, h.tables, h.legal.fastByte_eq_foldByte h.reg]

theorem Ready.Inv.after_updateBits {r : Ready} (h : r.Inv) (v : Word) (n : Nat) :
    r.after (.updateBits v n) = r.accumulate (foldBits r.cfg r.reg v n) := by
  rw [Ready.after, h.tables, h.legal.fastFoldBits_eq_foldBits h.reg]

/-- Settles O8: the block state selects the table of answers, the command its row; in U CONFIGURE's row is told by the width and the check. -/
theorem outcomeOfEveryCommandInEveryState : Obligations.OutcomeOfEveryCommandInEveryState := by
  unfold Obligations.OutcomeOfEveryCommandInEveryState
  refine ⟨fun s i => ?command, fun s f es e hs hd => step_illegal hs hd⟩
  case command =>
    cases h : s.block with
    | configError c =>
      refine ⟨_, _, _, exec_configError h i, rfl, rfl, rfl, ?_⟩
      cases i <;> exact ⟨rfl, rfl, rfl⟩
    | ready r =>
      refine ⟨_, _, _, exec_ready h i, rfl, rfl, rfl, ?_⟩
      cases i with
      | update b => exact ⟨rfl, rfl, rfl, fun hs => congrArg Block.ready ((hs.ready h).after_update b)⟩
      | updateBits v n => exact ⟨rfl, rfl, rfl, fun hs _ => congrArg Block.ready ((hs.ready h).after_updateBits v n)⟩
      | configure | getEngine | finalize | read | bitsRev => exact ⟨rfl, rfl, rfl⟩
    | unconfigured =>
      cases i with
      | configure ri ro cp sh n p q x k =>
        rw [exec_configure h]
        obtain ⟨hwidth, e⟩ | ⟨⟨h1, h64⟩, ⟨hcp, hk⟩, e⟩ | ⟨⟨h1, h64⟩, hk, e⟩ := configureBlock_outcome ri ro cp sh n p q x k
        · exact ⟨_, _, _, congrArg _ (e s), rfl, rfl, rfl, fun _ => ⟨rfl, rfl, rfl⟩, fun h1 h64 => absurd ⟨h1, h64⟩ hwidth,
            fun h1 h64 => absurd ⟨h1, h64⟩ hwidth⟩
        · exact ⟨_, _, _, congrArg _ (e s), rfl, rfl, rfl, fun hwidth => absurd ⟨h1, h64⟩ hwidth, fun _ _ _ _ => ⟨rfl, rfl, rfl⟩,
            fun _ _ hright => absurd (hright hcp) hk⟩
        · exact ⟨_, _, _, congrArg _ (e s), rfl, rfl, rfl, fun hwidth => absurd ⟨h1, h64⟩ hwidth,
            fun _ _ hcp hne => absurd (hk hcp) hne,
            fun _ _ _ => ⟨rfl, rfl, congrArg Block.ready (readyFrom_eq (makeCfg_legal ri ro sh h1 h64 p q x))⟩⟩
      | getEngine | update | updateBits | finalize | read | bitsRev =>
        exact ⟨_, _, _, exec_unconfigured h Opcode.noConfusion, rfl, rfl, rfl, rfl, rfl, rfl⟩

/-! ### The invariant -/

theorem launchBlock_inv (h : Option Parameters) : (launchBlock h).Inv := by
  cases h with
  | none => exact trivial
  | some p =>
    exact configureBlock_inv p.refin p.refout p.checkPresent p.shape p.bits p.poly p.init p.xorout p.check State.reset

theorem step_keeps_inv {s t : State} (hs : s.Inv) (h : step s = .next t) : t.Inv := by
  obtain ⟨-, e⟩ | ⟨es, -, e⟩ | ⟨_, es, _, -, -, e⟩ | ⟨_, es, i, -, -, e⟩ := step_cases s
  · cases e.symm.trans h
    exact hs
  · cases e.symm.trans h
    exact launchBlock_inv s.hardwired
  · cases e.symm.trans h
    exact hs.of_block_eq rfl
  · have htaken : ({ s with stream := es } : State).Inv := hs.of_block_eq rfl
    exact exec_keeps_inv htaken i (e.symm.trans h)

/-- Settles O14: no event and an illegal frame leave the block, a reset and a command by their own lemmas. -/
theorem everyStepKeepsInvariant : Obligations.EveryStepKeepsInvariant := by
  unfold Obligations.EveryStepKeepsInvariant
  exact fun _ _ => step_keeps_inv

/-- Settles O13: in U there is nothing to say. -/
theorem invariantHoldsAtReset : Obligations.InvariantHoldsAtReset := by
  unfold Obligations.InvariantHoldsAtReset
  exact launchBlock_inv none

/-- Settles O15: the launch block has the invariant, whatever program is loaded, and every step keeps it. -/
theorem reachableStatesHaveInvariant : Obligations.ReachableStatesHaveInvariant := by
  unfold Obligations.ReachableStatesHaveInvariant
  intro s hs
  induction hs with
  | start program h => exact launchBlock_inv h
  | next _ hstep ih => exact step_keeps_inv ih hstep

/-! ### BSTATE -/

theorem configureBlock_bstate (ri ro cp : Bool) (sh : Shape) (n : Nat) (p i x k : Word) (s : State) :
    (configureBlock ri ro cp sh n p i x k s).block.bstate = 1 ∨ (configureBlock ri ro cp sh n p i x k s).block.bstate = 2 := by
  obtain ⟨-, e⟩ | ⟨-, -, e⟩ | ⟨-, -, e⟩ := configureBlock_outcome ri ro cp sh n p i x k <;> rw [e]
  · exact .inr rfl
  · exact .inr rfl
  · exact .inl rfl

/-- Only CONFIGURE in U writes BSTATE. -/
theorem exec_bstate {s t : State} {i : Instr} (h : exec i s = .next t) :
    t.block.bstate = s.block.bstate ∨
    (s.block.bstate = 0 ∧ (∃ ri ro cp sh n p q x k, i = .configure ri ro cp sh n p q x k) ∧ (t.block.bstate = 1 ∨ t.block.bstate = 2)) := by
  cases hs : s.block with
  | ready r =>
    rw [exec_ready hs] at h
    cases h
    exact .inl rfl
  | configError c =>
    rw [exec_configError hs] at h
    cases h
    exact .inl rfl
  | unconfigured =>
    cases i with
    | configure ri ro cp sh n p q x k =>
      rw [exec_configure hs] at h
      cases h
      exact .inr ⟨rfl, ⟨ri, ro, cp, sh, n, p, q, x, k, rfl⟩, configureBlock_bstate ri ro cp sh n p q x k s⟩
    | getEngine | update | updateBits | finalize | read | bitsRev =>
      rw [exec_unconfigured hs Opcode.noConfusion] at h
      cases h
      exact .inl rfl

/-- A frame leaves the block when it is illegal, and else does what its command does. -/
theorem step_frame {s t : State} {f : Frame} {es : List HostEvent} (hs : s.stream = .frame f :: es) (h : step s = .next t) :
    t.block = s.block ∨ ∃ i, decode f = .ok i ∧ exec i { s with stream := es } = .next t := by
  cases hd : decode f with
  | error e =>
    rw [step_illegal hs hd] at h
    cases h
    exact .inl rfl
  | ok i => exact .inr ⟨i, rfl, (step_command hs hd).symm.trans h⟩

theorem launchBlock_bstate_eq_zero_iff (h : Option Parameters) : (launchBlock h).bstate = 0 ↔ h = none := by
  obtain ⟨rfl, e⟩ | ⟨p, c, rfl, e⟩ | ⟨p, rfl, -, e⟩ := launchBlock_cases h <;> rw [e]
  · simp
  · simp
  · simp

/-- Settles O2: a reset's step is `step_reset`; outside U no command writes BSTATE. -/
theorem resetIsTheOnlyWayOut : Obligations.ResetIsTheOnlyWayOut := by
  unfold Obligations.ResetIsTheOnlyWayOut
  have hreset {s : State} {es : List HostEvent} (hs : s.stream = .reset :: es) (hw : s.hardwired = none) :
      step s = .next { s with block := .unconfigured, stream := es } := by
    rw [step_reset hs, resetBlock, hw, launchBlock_none]
  refine ⟨fun s es hs => ⟨step_reset hs, hreset hs⟩, fun s t es hs hw hu h => ?inU, fun s t f es hs hout h => ?frame⟩
  case inU =>
    rw [hreset hs hw] at h
    cases h
    exact hu.symm
  case frame =>
    obtain hblock | ⟨i, -, hexec⟩ := step_frame hs h
    · rw [hblock]
    · obtain hsame | ⟨hzero, -⟩ := exec_bstate hexec
      · exact hsame
      · exact absurd hzero hout

theorem bstate_ne_three (b : Block) : b.bstate ≠ 3 := by cases b <;> simp

/-- Settles O11: of the four things a step can do, only a reset and CONFIGURE in U write BSTATE. -/
theorem bstateTransitions : Obligations.BstateTransitions := by
  unfold Obligations.BstateTransitions
  intro s t h
  refine ⟨bstate_ne_three t.block, ?_⟩
  cases hs : s.stream with
  | nil =>
    rw [step_idle hs] at h
    cases h
    exact .inl rfl
  | cons e es =>
    cases e with
    | reset =>
      rw [step_reset hs] at h
      cases h
      exact .inr (.inl ⟨es, rfl, launchBlock_bstate_eq_zero_iff s.hardwired⟩)
    | frame f =>
      obtain hblock | ⟨i, hd, hexec⟩ := step_frame hs h
      · exact .inl (congrArg Block.bstate hblock)
      · obtain hsame | ⟨hzero, ⟨ri, ro, cp, sh, n, p, q, x, k, rfl⟩, hwritten⟩ := exec_bstate hexec
        · exact .inl hsame
        · exact .inr (.inr ⟨f, es, ri, ro, cp, sh, n, p, q, x, k, rfl, hd, hzero, hwritten⟩)

/-! ### One answer a frame -/

/-- Settles O5: of the four things a step can do, an illegal frame and a command answer once, the others not at all. -/
theorem everyFrameIsAnsweredOnce : Obligations.EveryFrameIsAnsweredOnce := by
  unfold Obligations.EveryFrameIsAnsweredOnce
  intro s
  obtain ⟨hs, e⟩ | ⟨es, hs, e⟩ | ⟨f, es, _, hs, -, e⟩ | ⟨f, es, i, hs, -, e⟩ := step_cases s <;> rw [hs]
  · exact ⟨s, e, hs, rfl, rfl⟩
  · exact ⟨_, e, rfl, rfl, rfl⟩
  · exact ⟨_, e, rfl, rfl, _, rfl⟩
  · obtain ⟨b, a, ha⟩ := exec_answered i s.block
    exact ⟨_, e.trans (ha _ rfl), rfl, rfl, a, rfl⟩

/-- Settles O4: a step is the delivery of a frame and its command. -/
theorem stepRunsTheDecodedCommand : Obligations.StepRunsTheDecodedCommand := by
  unfold Obligations.StepRunsTheDecodedCommand
  exact fun _ _ _ _ => step_command

theorem decode_of_len_eq_zero {f : Frame} (h : f.len = 0) : decode f = .error .length := by
  rw [decode_length_iff, h]
  rfl

/-- Settles O3: no bits are not one of the four lengths. -/
theorem emptyFrameIsIllegal : Obligations.EmptyFrameIsIllegal := by
  unfold Obligations.EmptyFrameIsIllegal
  exact fun _ _ _ hs hlen => step_illegal hs (decode_of_len_eq_zero hlen)

/-! ### Hard-wired configurations -/

theorem launchBlock_bstate_eq_one_iff (p : Parameters) :
    (launchBlock (some p)).bstate = 1 ↔ 1 ≤ p.bits ∧ p.bits ≤ 64 ∧ (p.checkPresent = true →
      p.check = crcOf (makeCfg p.refin p.refout p.shape p.bits p.poly p.init p.xorout) Config.checkString) := by
  rw [launchBlock]
  obtain ⟨hwidth, e⟩ | ⟨-, ⟨hcp, hk⟩, e⟩ | ⟨⟨h1, h64⟩, hk, e⟩ :=
    configureBlock_outcome p.refin p.refout p.checkPresent p.shape p.bits p.poly p.init p.xorout p.check <;> rw [e]
  · exact iff_of_false (by simp) fun ⟨h1, h64, _⟩ => hwidth ⟨h1, h64⟩
  · exact iff_of_false (by simp) fun ⟨_, _, hright⟩ => hk (hright hcp)
  · exact iff_of_true rfl ⟨h1, h64, hk⟩

/-- Settles O60: the launch block is what `configureBlock` leaves after a plain reset, and that is also what the frame's step runs. -/
theorem hardwiredConfiguration : Obligations.HardwiredConfiguration := by
  unfold Obligations.HardwiredConfiguration
  intro p s
  refine ⟨configureBlock_bstate .., launchBlock_inv (some p), rfl, rfl, launchBlock_bstate_eq_one_iff p, fun u es hw hs => ?reset,
    fun hbits => ⟨configureBlock p.refin p.refout p.checkPresent p.shape p.bits p.poly p.init p.xorout p.check State.reset,
      ?frame, rfl⟩⟩
  case reset =>
    rw [step_reset hs, resetBlock, hw]
    rfl
  case frame =>
    have hwf : (Instr.configure p.refin p.refout p.checkPresent p.shape p.bits p.poly p.init p.xorout p.check).wf = true :=
      decide_eq_true hbits
    exact (step_command rfl (decode_encode hwf)).trans (exec_configure rfl ..)

end Sys2Proof.Machine
end

section
/-! SUPPORT. The other side of the command port: the nine bytes of a response (spec/30_encoding.md R84, R85), and the commands that the
assembler's lines stand for (R82, R83). -/

namespace Sys2Proof.Machine

/-! ### Responses -/

/-- Byte `j` of a word, the most significant first. -/
theorem bytesOfWord_eq_map (v : Word) : bytesOfWord v = (List.range 8).map fun j => (v >>> (8 * (7 - j))).setWidth 8 := by
  simp [bytesOfWord, List.range_succ]

theorem toNat_bytesOfWord_getElem (v : Word) {j : Nat} (h : j < (bytesOfWord v).length) :
    ((bytesOfWord v)[j]).toNat = v.toNat / 256 ^ (7 - j) % 256 := by
  simp only [bytesOfWord_eq_map, List.getElem_map, List.getElem_range, BitVec.toNat_setWidth, BitVec.toNat_ushiftRight,
    Nat.shiftRight_eq_div_pow, Nat.pow_mul, Nat.reducePow]

/-- Settles O20: the data bytes are `bytesOfWord`'s; the codes are four. -/
theorem responseLayout : Obligations.ResponseLayout := by
  unfold Obligations.ResponseLayout
  refine ⟨fun r => ⟨rfl, bytesOfWord r.data, rfl, rfl, fun j h => toNat_bytesOfWord_getElem r.data h⟩, rfl, rfl, rfl, rfl,
    fun status => ?code⟩
  case code => cases status <;> decide

/-! ### The assembler's lines -/

/-- Settles O21: a line's expansion is its definition; an ASCII text's bytes are its codes; CTL is `controlByte`, whose fields are read back. -/
theorem pseudoOperationExpansions : Obligations.PseudoOperationExpansions := by
  unfold Obligations.PseudoOperationExpansions
  refine ⟨fun _ => rfl, fun _ => rfl, fun text bs _ hcodes => ?ascii, fun _ => rfl, fun _ _ => rfl,
    fun _ _ _ _ _ _ _ _ => ⟨rfl, rfl, rfl, rfl⟩, fun ri ro cp shape _ _ _ _ _ => ?control⟩
  case ascii => rw [assemble, asciiBytes_eq_of_codes hcodes, updateBytes]
  case control =>
    obtain ⟨-, -, hri, hro, hcp⟩ := controlByte_fields ri ro cp shape
    exact ⟨controlByte ri ro cp shape, rfl, hri, hro, hcp, controlByte_shape ri ro cp shape⟩

end Sys2Proof.Machine
end

section
/-! SUPPORT. Runs of the machine (spec/70_reset_and_hazards.md R273, R274): what every step keeps, every run keeps; state E without a reset
(spec/60_exceptions.md R235), the configuration in state R (spec/10_state.md R24), and a run apart from the answers given before it. -/

namespace Sys2Proof.Machine

/-! ### Runs -/

theorem run_succ {M : Host.Core} {s t : M.State} (h : M.step s = .next t) (k : Nat) : M.run (k + 1) s = M.run k t := by
  rw [Host.Core.run, h]

/-- A run goes on, and keeps what every step keeps. -/
theorem run_keeps {P : State → Prop} (hstep : ∀ s, P s → ∃ t, step s = .next t ∧ P t) (k : Nat) {s : State} (hs : P s) :
    ∃ t : State, core.run k s = .next t ∧ P t := by
  induction k generalizing s with
  | zero => exact ⟨s, rfl, hs⟩
  | succ k ih =>
    obtain ⟨t, hst, ht⟩ := hstep s hs
    obtain ⟨u, htu, hu⟩ := ih ht
    exact ⟨u, (run_succ (M := core) hst k).trans htu, hu⟩

theorem NoReset.tail {e : HostEvent} {es : List HostEvent} (h : NoReset (e :: es)) : NoReset es := fun hmem =>
  h (List.mem_cons_of_mem e hmem)

theorem not_noReset_reset_cons (es : List HostEvent) : ¬NoReset (.reset :: es) := fun h => h List.mem_cons_self

/-! ### State E -/

/-- What a frame of these events can be answered with in state E (R235). -/
def ErrorAnswer (cause : Cause) (es : List HostEvent) (a : Response) : Prop :=
  a = { status := .errConfig, data := cause.code } ∨ a = { status := .errIllegal, data := 0 } ∨
    (a.status = .ok ∧ ∃ v n, HostEvent.frame (encode (.bitsRev v n)) ∈ es ∧ a.data = bitsRev v n)

theorem errorAnswer_answerRefusing {cause : Cause} {es : List HostEvent} {i : Instr} (h : HostEvent.frame (encode i) ∈ es) :
    ErrorAnswer cause es (answerRefusing { status := .errConfig, data := cause.code } i) := by
  cases i with
  | bitsRev v n => exact .inr (.inr ⟨rfl, v, n, h, rfl⟩)
  | configure | getEngine | update | updateBits | finalize | read => exact .inl rfl

/-- In E a frame of the stream is answered so, and the block stays. -/
theorem step_frame_configError {s : State} {cause : Cause} {f : Frame} {es events : List HostEvent} (hblock : s.block = .configError cause)
    (hs : s.stream = .frame f :: es) (hmem : HostEvent.frame f ∈ events) :
    ∃ a, step s = .next (({ s with stream := es } : State).answered (.configError cause) a) ∧ ErrorAnswer cause events a := by
  have htaken : ({ s with stream := es } : State).block = .configError cause := hblock
  cases hd : decode f with
  | error e => exact ⟨_, (step_illegal hs hd).trans (congrArg _ (respond_eq_answered htaken ..)), .inr (.inl rfl)⟩
  | ok i =>
    have hencode : HostEvent.frame (encode i) ∈ events := by rwa [(encode_of_decode hd).2]
    exact ⟨_, (step_command hs hd).trans (exec_configError htaken i), errorAnswer_answerRefusing hencode⟩

/-- A state some steps after `s`, in state E: what is left of the stream of `s`, and the answers since. -/
structure AbsorbedFrom (s : State) (cause : Cause) (t : State) : Prop where
  block : t.block = .configError cause
  stream : t.stream <:+ s.stream
  answers : ∃ new, t.responses = s.responses ++ new ∧ ∀ a ∈ new, ErrorAnswer cause s.stream a

theorem AbsorbedFrom.step {s t : State} {cause : Cause} (hs : NoReset s.stream) (h : AbsorbedFrom s cause t) :
    ∃ u, step t = .next u ∧ AbsorbedFrom s cause u := by
  obtain ⟨hblock, hsuffix, new, hnew, hanswers⟩ := h
  cases ht : t.stream with
  | nil => exact ⟨t, step_idle ht, hblock, hsuffix, new, hnew, hanswers⟩
  | cons e es =>
    rw [ht] at hsuffix
    cases e with
    | reset => exact absurd (hsuffix.subset List.mem_cons_self) hs
    | frame f =>
      obtain ⟨a, hstep, ha⟩ := step_frame_configError hblock ht (hsuffix.subset List.mem_cons_self)
      refine ⟨_, hstep, rfl, (List.suffix_cons _ es).trans hsuffix, new ++ [a], ?_,
        List.forall_mem_append.2 ⟨hanswers, List.forall_mem_singleton.2 ha⟩⟩
      rw [answered_responses, hnew, List.append_assoc]

/-- Settles O9: `AbsorbedFrom` is kept by every step of a stream without a reset. -/
theorem errorStateIsAbsorbing : Obligations.ErrorStateIsAbsorbing := by
  unfold Obligations.ErrorStateIsAbsorbing
  intro k s cause hblock hs
  have hstart : AbsorbedFrom s cause s := ⟨hblock, List.suffix_rfl, [], (List.append_nil _).symm, List.forall_mem_nil _⟩
  obtain ⟨t, hrun, ht⟩ := run_keeps (fun _ h => h.step hs) k hstart
  exact ⟨t, hrun, ht.block, ht.answers⟩

/-! ### State R -/

theorem after_cfg (r : Ready) (i : Instr) : (r.after i).cfg = r.cfg := by cases i <;> rfl
theorem after_tables (r : Ready) (i : Instr) : (r.after i).tables = r.tables := by cases i <;> rfl
theorem after_check (r : Ready) (i : Instr) : (r.after i).check = r.check := by cases i <;> rfl

/-- In R with this configuration, and no reset to come. -/
def ConfiguredAs (r : Ready) (s : State) : Prop :=
  NoReset s.stream ∧ ∃ r', s.block = .ready r' ∧ r'.cfg = r.cfg ∧ r'.tables = r.tables ∧ r'.check = r.check

theorem ConfiguredAs.step {r : Ready} {s : State} (h : ConfiguredAs r s) : ∃ t, step s = .next t ∧ ConfiguredAs r t := by
  obtain ⟨hs, r', hblock, hcfg, htables, hcheck⟩ := h
  obtain ⟨hstream, e⟩ | ⟨es, hstream, e⟩ | ⟨_, es, _, hstream, -, e⟩ | ⟨_, es, i, hstream, -, e⟩ := step_cases s
  · exact ⟨s, e, hs, r', hblock, hcfg, htables, hcheck⟩
  · exact absurd (hstream ▸ hs) (not_noReset_reset_cons es)
  · exact ⟨_, e, (hstream ▸ hs).tail, r', hblock, hcfg, htables, hcheck⟩
  · have htaken : ({ s with stream := es } : State).block = .ready r' := hblock
    exact ⟨_, e.trans (exec_ready htaken i), (hstream ▸ hs).tail, r'.after i, rfl, (after_cfg r' i).trans hcfg,
      (after_tables r' i).trans htables, (after_check r' i).trans hcheck⟩

/-- Settles O10: no command of state R writes more than REG and PHASE. -/
theorem configurationNeverChanges : Obligations.ConfigurationNeverChanges := by
  unfold Obligations.ConfigurationNeverChanges
  intro k s r hblock hs
  have hstart : ConfiguredAs r s := ⟨hs, r, hblock, rfl, rfl, rfl⟩
  obtain ⟨t, hrun, -, r', ht⟩ := run_keeps (fun _ h => h.step) k hstart
  exact ⟨t, r', hrun, ht⟩

/-! ### The answers given before -/

/-- A step does not read the responses: it appends to whatever is there. -/
theorem step_appends (s : State) : ∃ (t : State) (new : List Response), ∀ rs : List Response,
    step { s with responses := rs } = .next { t with responses := rs ++ new } := by
  obtain ⟨hs, -⟩ | ⟨es, hs, -⟩ | ⟨f, es, e, hs, hd, -⟩ | ⟨f, es, i, hs, hd, -⟩ := step_cases s
  · exact ⟨s, [], fun rs => by rw [List.append_nil]; exact step_idle hs⟩
  · exact ⟨resetBlock { s with stream := es }, [], fun rs => by rw [List.append_nil]; exact step_reset hs⟩
  · exact ⟨{ s with stream := es }, _, fun rs => step_illegal hs hd⟩
  · obtain ⟨b, a, ha⟩ := exec_answered i s.block
    exact ⟨{ s with block := b, stream := es }, [a], fun rs =>
      (step_command (s := { s with responses := rs }) hs hd).trans (ha _ rfl)⟩

theorem run_appends (k : Nat) (s : State) : ∃ (t : State) (new : List Response), ∀ rs : List Response,
    core.run k { s with responses := rs } = .next { t with responses := rs ++ new } := by
  induction k generalizing s with
  | zero => exact ⟨s, [], fun rs => by rw [List.append_nil]; rfl⟩
  | succ k ih =>
    obtain ⟨t, new, ht⟩ := step_appends s
    obtain ⟨u, more, hu⟩ := ih t
    exact ⟨u, new ++ more, fun rs => by rw [run_succ (M := core) (ht rs), hu, List.append_assoc]⟩

/-- Settles O12: two such states differ in their earlier responses only, which no run reads. -/
theorem answersDependOnBlockAndFramesOnly : Obligations.AnswersDependOnBlockAndFramesOnly := by
  unfold Obligations.AnswersDependOnBlockAndFramesOnly
  intro k s₁ s₂ hblock hhardwired hstream
  have hs₂ : s₂ = { s₁ with responses := s₂.responses } := by rw [hblock, hhardwired, hstream]
  obtain ⟨t, new, ht⟩ := run_appends k s₁
  refine ⟨{ t with responses := s₁.responses ++ new }, { t with responses := s₂.responses ++ new }, new, ht s₁.responses, ?_,
    rfl, rfl, rfl, rfl⟩
  exact (congrArg (core.run k) hs₂).trans (ht s₂.responses)

end Sys2Proof.Machine
end

section
/-! SUPPORT. Folding a message in parts (spec/41_slow_recurrence.md R127, spec/20_memory.md R53), the engine's state machine
(spec/44_engine_operations.md R215, spec/60_exceptions.md R246), and two blocks that differ in the shape of their tables (spec/10_state.md R31). -/

namespace Sys2Proof.Machine

/-! ### A message in parts -/

theorem foldBytes_append (cfg : Cfg) (c : Word) (bs₁ bs₂ : List Byte) :
    foldBytes cfg c (bs₁ ++ bs₂) = foldBytes cfg (foldBytes cfg c bs₁) bs₂ := List.foldl_append

/-- Settles O30: a fold over a list; the low bits of a bit string come first upward, the high ones downward. -/
theorem foldOfConcatenation : Obligations.FoldOfConcatenation := by
  unfold Obligations.FoldOfConcatenation
  refine fun cfg c => ⟨foldSeq_append cfg c, foldBytes_append cfg c, fun v n₁ n₂ hr => ?reflected, fun v n₁ n₂ hr => ?direct⟩
  case reflected => simp only [foldBits_reflected hr, bitsUp_add, foldSeq_append]
  case direct => simp only [foldBits_direct hr, bitsDown_add, foldSeq_append]

/-- The whole bytes of a value in fold order (R53). -/
def bytesInOrder (refin : Bool) (v : Word) (k : Nat) : List Byte :=
  (List.range k).map fun j => lowByte (v >>> (8 * (if refin = true then j else k - 1 - j)))

@[simp] theorem bytesInOrder_length (refin : Bool) (v : Word) (k : Nat) : (bytesInOrder refin v k).length = k := by
  simp [bytesInOrder]

theorem Cfg.Legal.foldBytes_bytesInOrder {cfg : Cfg} (h : cfg.Legal) {c : Word} (hc : Fits c cfg.bits) (v : Word) (k : Nat) :
    foldBytes cfg c (bytesInOrder cfg.refin v k) = foldBits cfg c v (8 * k) := by
  cases hr : cfg.refin with
  | true => exact h.foldBytes_wholeBytesUp hr hc v k
  | false => exact h.foldBytes_wholeBytesDown hr hc v k

/-- Settles O47: the bytes' bits are the value's, in either mode, and a run of one update or more leaves the engine Accumulating. -/
theorem updateBitsIsUpdatesOfItsBytes : Obligations.UpdateBitsIsUpdatesOfItsBytes := by
  unfold Obligations.UpdateBitsIsUpdatesOfItsBytes
  intro s r v k h hs hk _ bytes
  have hr := hs.ready h
  have hbytes : bytes = bytesInOrder r.cfg.refin v k := rfl
  have hne : updateBytes (bytesInOrder r.cfg.refin v k) ≠ [] :=
    List.ne_nil_of_length_pos (by rwa [updateBytes_length, bytesInOrder_length])
  refine ⟨_, _, exec_updateBits h hr v (8 * k), execAll_isUpdate (is := updateBytes bytes) h hr isUpdate_of_mem_updateBytes, ?_⟩
  rw [State.afterUpdates_block, Ready.afterUpdates, hr.legal.foldSeq_updateBytes hr.reg, hbytes,
    hr.legal.foldBytes_bytesInOrder hr.reg, if_neg hne]
  rfl

/-! ### The engine's state machine -/

/-- A run of one update or more leaves nothing of itself but the register it folds to (R246). -/
theorem Ready.afterUpdates_congr (r : Ready) {is₁ is₂ : List Instr} (h₁ : is₁ ≠ []) (h₂ : is₂ ≠ [])
    (h : foldSeq r.cfg r.reg (messageOf r.cfg.refin is₁) = foldSeq r.cfg r.reg (messageOf r.cfg.refin is₂)) :
    r.afterUpdates is₁ = r.afterUpdates is₂ := by
  rw [Ready.afterUpdates, Ready.afterUpdates, h, if_neg h₁, if_neg h₂]

/-- Settles O53: the table is `Ready.after`, with the folds of UPDATE and UPDATE_BITS by the slow recurrence. -/
theorem engineStateMachine : Obligations.EngineStateMachine := by
  unfold Obligations.EngineStateMachine
  refine ⟨fun s r i h hs _ => ?table, fun s r is₁ is₂ h hs h₁ h₂ his hfold => ?runs⟩
  case table =>
    have hr := hs.ready h
    refine ⟨_, r.after i, exec_ready h i, rfl, after_cfg r i, after_tables r i, after_check r i, ?_⟩
    cases i with
    | update b => exact hr.after_update b ▸ ⟨rfl, rfl⟩
    | updateBits v n => exact hr.after_updateBits v n ▸ ⟨rfl, rfl⟩
    | configure | getEngine | finalize | read | bitsRev => exact ⟨rfl, rfl⟩
  case runs =>
    have hr := hs.ready h
    obtain ⟨his₁, his₂⟩ := List.forall_mem_append.1 his
    refine ⟨_, _, execAll_isUpdate h hr fun i hi => (his₁ i hi).1, execAll_isUpdate h hr fun i hi => (his₂ i hi).1, ?_⟩
    rw [State.afterUpdates_block, State.afterUpdates_block, r.afterUpdates_congr h₁ h₂ hfold]

/-! ### The shape of the tables -/

/-- No function of the slow recurrence reads the shape. -/
theorem crcOf_withShape (cfg : Cfg) (sh : Shape) (bs : List Byte) : crcOf { cfg with shape := sh } bs = crcOf cfg bs := rfl

/-- Two ready blocks that differ in their shape and its tables only. -/
structure AlikeButShape (sh : Shape) (r₁ r₂ : Ready) : Prop where
  cfg : r₂.cfg = { r₁.cfg with shape := sh }
  check : r₂.check = r₁.check
  reg : r₂.reg = r₁.reg
  phase : r₂.phase = r₁.phase

theorem Ready.Inv.alikeButShape {sh : Shape} {r₁ r₂ : Ready} (h₁ : r₁.Inv) (h₂ : r₂.Inv) (hcfg : r₂.cfg = { r₁.cfg with shape := sh })
    (hreg : r₂.reg = r₁.reg) (hphase : r₂.phase = r₁.phase) : AlikeButShape sh r₁ r₂ where
  cfg := hcfg
  check := by rw [h₂.check, h₁.check, hcfg, crcOf_withShape]
  reg := hreg
  phase := hphase

theorem AlikeButShape.makeFresh {sh : Shape} {r₁ r₂ : Ready} (h : AlikeButShape sh r₁ r₂) :
    AlikeButShape sh r₁.makeFresh r₂.makeFresh where
  cfg := h.cfg
  check := h.check
  reg := by rw [makeFresh_reg, makeFresh_reg, h.cfg]
  phase := rfl

theorem AlikeButShape.accumulate {sh : Shape} {r₁ r₂ : Ready} (h : AlikeButShape sh r₁ r₂) {c₁ c₂ : Word} (hc : c₂ = c₁) :
    AlikeButShape sh (r₁.accumulate c₁) (r₂.accumulate c₂) where
  cfg := h.cfg
  check := h.check
  reg := hc
  phase := rfl

/-- Under the invariant the tables hold what the slow recurrence says, whatever their shape, so every command keeps the two alike. -/
theorem AlikeButShape.after {sh : Shape} {r₁ r₂ : Ready} (h : AlikeButShape sh r₁ r₂) (h₁ : r₁.Inv) (h₂ : r₂.Inv) (i : Instr) :
    AlikeButShape sh (r₁.after i) (r₂.after i) := by
  cases i with
  | configure | read | bitsRev => exact h
  | getEngine | finalize => exact h.makeFresh
  | update b =>
    rw [h₁.after_update, h₂.after_update, h.cfg, h.reg]
    exact h.accumulate rfl
  | updateBits v n =>
    rw [h₁.after_updateBits, h₂.after_updateBits, h.cfg, h.reg]
    exact h.accumulate rfl

theorem AlikeButShape.readValue {sh : Shape} {r₁ r₂ : Ready} (h : AlikeButShape sh r₁ r₂) {sel : Selector} (hsel : sel ≠ .tableShape) :
    readValue r₂ sel = readValue r₁ sel := by
  cases sel with
  | tableShape => exact absurd rfl hsel
  | checkValue => exact h.check
  | phase => exact congrArg Phase.code h.phase
  | bits | poly | polyRev | init | xorOut | reflectIn | reflectOut | mask | resultWidth | initEff =>
    simp only [Machine.readValue, h.cfg]

theorem AlikeButShape.answer {sh : Shape} {r₁ r₂ : Ready} (h : AlikeButShape sh r₁ r₂) {i : Instr} (hi : i ≠ .read .tableShape) :
    r₂.answer i = r₁.answer i := by
  cases i with
  | configure | getEngine | update | updateBits | bitsRev => rfl
  | finalize => rw [Ready.answer, Ready.answer, h.cfg, h.reg]; rfl
  | read sel => rw [Ready.answer, Ready.answer, h.readValue fun hsel => hi (hsel ▸ rfl)]

/-- What two states must share for CONFIGURE to have answered alike. -/
def ConfiguredAlike (t₁ t₂ : State) : Prop :=
  t₁.responses = t₂.responses ∧ t₁.block.bstate = t₂.block.bstate ∧ t₁.block.cause? = t₂.block.cause?

/-- CONFIGURE tests the width and a CRC, neither of which depends on the shape. -/
theorem configureBlock_alike (ri ro cp : Bool) (sh₁ sh₂ : Shape) (n : Nat) (p i x k : Word) (s : State) :
    ConfiguredAlike (configureBlock ri ro cp sh₁ n p i x k s) (configureBlock ri ro cp sh₂ n p i x k s) := by
  have hcrc : crcOf (makeCfg ri ro sh₁ n p i x) Config.checkString = crcOf (makeCfg ri ro sh₂ n p i x) Config.checkString :=
    crcOf_withShape (makeCfg ri ro sh₂ n p i x) sh₁ _
  obtain ⟨hwidth, e⟩ | ⟨⟨h1, h64⟩, ⟨rfl, hk⟩, e⟩ | ⟨⟨h1, h64⟩, hk, e⟩ := configureBlock_outcome ri ro cp sh₁ n p i x k
  · rw [e, configureBlock_of_not_legalWidth ri ro cp sh₂ hwidth]
    exact ⟨rfl, rfl, rfl⟩
  · rw [e, configureBlock_of_wrong_check ri ro sh₂ h1 h64 p i x (hcrc ▸ hk)]
    exact ⟨rfl, rfl, rfl⟩
  · rw [e, configureBlock_success ri ro sh₂ h1 h64 p i x (hcrc ▸ hk)]
    exact ⟨rfl, rfl, rfl⟩

/-- Settles O40: outside U CONFIGURE is refused whatever it names; in R every command but that READ keeps two blocks alike and answers alike. -/
theorem shapeIsUnobservable : Obligations.ShapeIsUnobservable := by
  unfold Obligations.ShapeIsUnobservable
  refine ⟨fun s sh₁ sh₂ ri ro cp n p q x k => ?configure, fun s₁ s₂ r₁ r₂ sh i hs₁ hs₂ h₁ h₂ hcfg hreg hphase _ hi => ?command⟩
  case configure =>
    cases hs : s.block with
    | unconfigured => exact ⟨_, _, exec_configure hs .., exec_configure hs .., configureBlock_alike ri ro cp sh₁ sh₂ n p q x k s⟩
    | ready r => exact ⟨_, _, exec_ready hs _, exec_ready hs _, rfl, rfl, rfl⟩
    | configError c => exact ⟨_, _, exec_configError hs _, exec_configError hs _, rfl, rfl, rfl⟩
  case command =>
    have halike := h₁.alikeButShape h₂ hcfg hreg hphase
    have hnext := halike.after h₁ h₂ i
    refine ⟨_, _, r₁.after i, r₂.after i, r₁.answer i, exec_ready hs₁ i, exec_ready hs₂ i, rfl, ?_, rfl, rfl, hnext.cfg, hnext.check,
      hnext.reg, hnext.phase⟩
    rw [answered_responses, halike.answer hi]

end Sys2Proof.Machine
end
